-- ==== Sys2Proof/Word.lean ====
section
/-!
DEFINITION. The word types of the core: the 8-bit byte, the 16-bit word, the operand fields of an instruction word
(spec/30_encoding.md R46) and the 4-bit register index (spec/10_state.md R10).
-/

namespace Sys2Proof

/-- A byte of memory, a general register or a timer: 8 bits, unsigned. -/
abbrev Byte := BitVec 8

/-- A 16-bit word: an instruction word, `I`, `PC` or a return address. -/
abbrev Word := BitVec 16

/-- The 12-bit address operand `nnn`. -/
abbrev Addr12 := BitVec 12

/-- A 4-bit field of an instruction word; the operand `n` is one. -/
abbrev Nibble := BitVec 4

/-- The index of a general register, `V[0]` to `V[15]` (R10). -/
abbrev Reg := Fin 16

end Sys2Proof
end

