-- ==== Sys2Proof/Config.lean ====
section
/-!
DEFINITION. What is fixed for this hardware (spec/00_scope.md R7, one value each), the font table
(spec/20_memory.md R37) and the two free inputs of a step (spec/60_exceptions.md R111).
-/

namespace Sys2Proof.Config

/-- `MEM_SIZE`: 4096 bytes of memory, addresses 0x000 to 0xFFF (R7, R30). -/
def memSize : Nat := 4096

/-- `PROG_BASE`: the first byte of the program region (R7, R31). -/
def progBase : Nat := 0x200

/-- `PROG_MAX`: the largest program, 3584 bytes (R7, R122). -/
def progMax : Nat := 0xE00

/-- `FONT_BASE`: the first byte of the font table (R7, R37). -/
def fontBase : Nat := 0x050

/-- `STACK_DEPTH`: 16 entries (R7, R17). -/
def stackDepth : Nat := 16

/-- `FETCH_LIMIT`: a fetch faults when `PC` is at or above 4094 (R7, R33; conflict C2; notes/assumptions/6.md). -/
def fetchLimit : Nat := 4094

/-- `PC_RESET`: the value of `PC` after reset (R24, R120).
DESIGN CHOICE of the spec (its D1), unsafe: notes/assumptions/1.md. -/
def pcReset : Word := 0x0200

/-- `FLAG_REG`: the index of VF (R7, R11). -/
def flagReg : Reg := 15

/-- Glyph 0 of the font, the one glyph the spec's source gives (R37). -/
def fontGlyph0 : List Byte := [0xF0, 0x90, 0x90, 0x90, 0xF0]

/-- Glyphs 1 to 7 of the font (R37).
PRESUMED, unsafe: the spec supplies them from general knowledge (its D10, notes/assumptions/11.md). -/
def fontGlyphs1to7 : List Byte :=
  [0x20, 0x60, 0x20, 0x20, 0x70,
   0xF0, 0x10, 0xF0, 0x80, 0xF0,
   0xF0, 0x10, 0xF0, 0x10, 0xF0,
   0x90, 0x90, 0xF0, 0x10, 0x10,
   0xF0, 0x80, 0xF0, 0x10, 0xF0,
   0xF0, 0x80, 0xF0, 0x90, 0xF0,
   0xF0, 0x10, 0x20, 0x40, 0x40]

/-- Glyphs 8 to F of the font (R37).
PRESUMED, unsafe: the spec supplies them from general knowledge (its D10, notes/assumptions/11.md). -/
def fontGlyphs8toF : List Byte :=
  [0xF0, 0x90, 0xF0, 0x90, 0xF0,
   0xF0, 0x90, 0xF0, 0x10, 0xF0,
   0xF0, 0x90, 0xF0, 0x90, 0x90,
   0xE0, 0x90, 0xE0, 0x90, 0xE0,
   0xF0, 0x80, 0x80, 0x80, 0xF0,
   0xE0, 0x90, 0x90, 0x90, 0xE0,
   0xF0, 0x80, 0xF0, 0x80, 0xF0,
   0xF0, 0x80, 0xF0, 0x80, 0x80]

/-- The font table: 16 glyphs of 5 bytes, glyph `d` at `0x050 + 5*d` (R37). -/
def font : List Byte := fontGlyph0 ++ fontGlyphs1to7 ++ fontGlyphs8toF

/-- The free input `due_dt` of the `k`-th timer update: whether the delay timer's deadline has passed (R110, R111).
It has no body, so every statement about the core holds whatever the environment draws.
DESIGN CHOICE, safe: notes/assumptions/2.md. -/
opaque dueDelay : Nat → Bool

/-- The free input `due_st` of the `k`-th timer update, independent of `due_dt` (R110, R111).
DESIGN CHOICE, safe: notes/assumptions/2.md. -/
opaque dueSound : Nat → Bool

end Sys2Proof.Config
end

