-- ==== Sys2Proof/Syntax.lean ====
section
/-!
DEFINITION. The instructions: one constructor per row of spec/opcode_table.json, in the order of spec/30_encoding.md
R49, with the operand fields of R46. The names are the spec's labels (its D16, notes/assumptions/24.md).
-/

namespace Sys2Proof

/-- The 21 instructions (R49). `shr` and `shl` keep their ignored field `y` and `sys` its ignored field `nnn` (R51), so
that an instruction determines its word. -/
inductive Instr where
  /-- 00E0, clear the display (R91). -/
  | cls
  /-- 00EE, return from subroutine (R60). -/
  | ret
  /-- 0nnn, no operation (R61). -/
  | sys (nnn : Addr12)
  /-- 1nnn, jump (R62). -/
  | jp (nnn : Addr12)
  /-- 2nnn, call subroutine (R63). -/
  | call (nnn : Addr12)
  /-- 3xkk, skip if `V[x] = kk` (R64). -/
  | seVxKk (x : Reg) (kk : Byte)
  /-- 4xkk, skip if `V[x] != kk` (R65). -/
  | sneVxKk (x : Reg) (kk : Byte)
  /-- 5xy0, skip if `V[x] = V[y]` (R66). -/
  | seVxVy (x y : Reg)
  /-- 6xkk, load immediate (R70). -/
  | ldVxKk (x : Reg) (kk : Byte)
  /-- 7xkk, add immediate, no flag (R71). -/
  | addVxKk (x : Reg) (kk : Byte)
  /-- 8xy0, copy register (R76). -/
  | ldVxVy (x y : Reg)
  /-- 8xy1, bitwise OR (R77). -/
  | or (x y : Reg)
  /-- 8xy2, bitwise AND (R78). -/
  | and (x y : Reg)
  /-- 8xy3, bitwise exclusive OR (R79). -/
  | xor (x y : Reg)
  /-- 8xy4, add, VF = carry (R80). -/
  | addVxVy (x y : Reg)
  /-- 8xy5, subtract, VF = no borrow (R81). -/
  | sub (x y : Reg)
  /-- 8xy6, shift right by one, VF = the bit shifted out; `y` is ignored (R82). -/
  | shr (x y : Reg)
  /-- 8xy7, reverse subtract, VF = no borrow (R83). -/
  | subn (x y : Reg)
  /-- 8xyE, shift left by one, VF = the bit shifted out; `y` is ignored (R84). -/
  | shl (x y : Reg)
  /-- Annn, load the index register (R90). -/
  | ldINnn (nnn : Addr12)
  /-- Dxyn, draw an `n`-row sprite, VF = collision (R92). -/
  | drw (x y : Reg) (n : Nibble)
  deriving DecidableEq, Repr

/-- The row of spec/opcode_table.json an instruction belongs to, by its mnemonic. -/
def Instr.mnemonic : Instr → String
  | .cls => "CLS"
  | .ret => "RET"
  | .sys _ => "SYS"
  | .jp _ => "JP"
  | .call _ => "CALL"
  | .seVxKk _ _ => "SE_VX_KK"
  | .sneVxKk _ _ => "SNE_VX_KK"
  | .seVxVy _ _ => "SE_VX_VY"
  | .ldVxKk _ _ => "LD_VX_KK"
  | .addVxKk _ _ => "ADD_VX_KK"
  | .ldVxVy _ _ => "LD_VX_VY"
  | .or _ _ => "OR"
  | .and _ _ => "AND"
  | .xor _ _ => "XOR"
  | .addVxVy _ _ => "ADD_VX_VY"
  | .sub _ _ => "SUB"
  | .shr _ _ => "SHR"
  | .subn _ _ => "SUBN"
  | .shl _ _ => "SHL"
  | .ldINnn _ => "LD_I_NNN"
  | .drw _ _ _ => "DRW"

end Sys2Proof
end

