-- ==== Sys2Proof/WellFormed.lean ====
section
/-!
DEFINITION. Which instructions have a word of their own: the field types of Syntax.lean carry every bound but one, that
the operand of 0nnn is neither 0x0E0 nor 0x0EE, whose words are CLS and RET (spec/30_encoding.md R49, R53, R61).
-/

namespace Sys2Proof

/-- An instruction that some word encodes. -/
def Instr.wellFormed : Instr → Bool
  | .sys nnn => nnn != 0x0E0#12 && nnn != 0x0EE#12
  | .cls | .ret | .jp _ | .call _ | .seVxKk _ _ | .sneVxKk _ _ | .seVxVy _ _ | .ldVxKk _ _ | .addVxKk _ _
  | .ldVxVy _ _ | .or _ _ | .and _ _ | .xor _ _ | .addVxVy _ _ | .sub _ _ | .shr _ _ | .subn _ _ | .shl _ _
  | .ldINnn _ | .drw _ _ _ => true

end Sys2Proof
end

