-- ==== Sys2Proof/Decode.lean ====
section
/-!
DEFINITION. Decoding and encoding: the fields of an instruction word (spec/30_encoding.md R45, R46), the decode function,
total on all 65536 words and rejecting by name (R48, R52), its byte form (big-endian, spec/20_memory.md R32), the encoder
(R53) and the opcode map as rows of match and mask (R49).
-/

namespace Sys2Proof

/-! ## Fields of the word (R45, R46) -/

/-- Nibble 0, `op[15:12]`: the opcode family. -/
def opFamily (op : Word) : Nibble := op.extractLsb' 12 4

/-- Nibble 1, `op[11:8]`: the register index `x`. -/
def opX (op : Word) : Reg := (op.extractLsb' 8 4).toFin

/-- Nibble 2, `op[7:4]`: the register index `y`. -/
def opY (op : Word) : Reg := (op.extractLsb' 4 4).toFin

/-- Nibble 3, `op[3:0]`: the sprite height `n`, or the sub-opcode of the XY format. -/
def opN (op : Word) : Nibble := op.extractLsb' 0 4

/-- `op[7:0]`: the immediate `kk`. -/
def opKk (op : Word) : Byte := op.extractLsb' 0 8

/-- `op[11:0]`: the address `nnn`. -/
def opNnn (op : Word) : Addr12 := op.extractLsb' 0 12

/-! ## Decode (R48) -/

/-- Why a word, or a run of bytes, is no instruction. The first seven are the rows of R52's table of unknown opcodes. -/
inductive UnknownWord where
  /-- 5xyN with N not 0. -/
  | word5xyN
  /-- 8xyN with N = 8, 9, A, B, C, D or F. -/
  | word8xyN
  /-- 9xxx. -/
  | word9xxx
  /-- Bxxx. -/
  | wordBxxx
  /-- Cxxx. -/
  | wordCxxx
  /-- Exxx. -/
  | wordExxx
  /-- Fxxx. -/
  | wordFxxx
  /-- Fewer than the two bytes of a word were given to the byte decoder; no fetch does so. -/
  | truncated
  deriving DecidableEq, Repr

/-- The answer of the decoder: an instruction, or the name of what was found instead. -/
inductive Decoded where
  | instr (i : Instr)
  | unknown (why : UnknownWord)
  deriving DecidableEq, Repr

/-- The 8xyN family, selected by nibble 3 (R48). -/
def decodeAlu (op : Word) : Decoded :=
  match (opN op).toNat with
  | 0x0 => .instr (.ldVxVy (opX op) (opY op))
  | 0x1 => .instr (.or (opX op) (opY op))
  | 0x2 => .instr (.and (opX op) (opY op))
  | 0x3 => .instr (.xor (opX op) (opY op))
  | 0x4 => .instr (.addVxVy (opX op) (opY op))
  | 0x5 => .instr (.sub (opX op) (opY op))
  | 0x6 => .instr (.shr (opX op) (opY op))
  | 0x7 => .instr (.subn (opX op) (opY op))
  | 0xE => .instr (.shl (opX op) (opY op))
  | _ => .unknown .word8xyN

/-- The decode function of R48: the first matching line wins. The last arm is nibble 0 = 0xF, the only value left. -/
def decodeWord (op : Word) : Decoded :=
  if op = 0x00E0#16 then .instr .cls
  else if op = 0x00EE#16 then .instr .ret
  else match (opFamily op).toNat with
    | 0x0 => .instr (.sys (opNnn op))
    | 0x1 => .instr (.jp (opNnn op))
    | 0x2 => .instr (.call (opNnn op))
    | 0x3 => .instr (.seVxKk (opX op) (opKk op))
    | 0x4 => .instr (.sneVxKk (opX op) (opKk op))
    | 0x5 => if opN op = 0x0#4 then .instr (.seVxVy (opX op) (opY op)) else .unknown .word5xyN
    | 0x6 => .instr (.ldVxKk (opX op) (opKk op))
    | 0x7 => .instr (.addVxKk (opX op) (opKk op))
    | 0x8 => decodeAlu op
    | 0x9 => .unknown .word9xxx
    | 0xA => .instr (.ldINnn (opNnn op))
    | 0xB => .unknown .wordBxxx
    | 0xC => .unknown .wordCxxx
    | 0xD => .instr (.drw (opX op) (opY op) (opN op))
    | 0xE => .unknown .wordExxx
    | _ => .unknown .wordFxxx

/-- The word held by two bytes, the one at the lower address the more significant (R32, R45). -/
def wordOfBytes (hi lo : Byte) : Word := hi ++ lo

/-- The more significant byte of a word, which memory holds at the lower address (R32). -/
def highByte (w : Word) : Byte := w.extractLsb' 8 8

/-- The less significant byte of a word. -/
def lowByte (w : Word) : Byte := w.extractLsb' 0 8

/-- Decoding of any run of bytes: the answer and the bytes left over. "a decoder always consumes exactly 2 bytes" (R45). -/
def decodeBytes : List Byte → Decoded × List Byte
  | hi :: lo :: rest => (decodeWord (wordOfBytes hi lo), rest)
  | short => (.unknown .truncated, short)

/-! ## Encode (R53) -/

/-- The four bits of a register index. -/
def regBits (x : Reg) : Nibble := BitVec.ofFin x

/-- A word of format NNN. -/
def wordNnn (family : Nibble) (nnn : Addr12) : Word := family ++ nnn

/-- A word of format XKK. -/
def wordXkk (family : Nibble) (x : Reg) (kk : Byte) : Word := family ++ regBits x ++ kk

/-- A word of format XY or XYN. -/
def wordXyn (family : Nibble) (x y : Reg) (n : Nibble) : Word := family ++ regBits x ++ regBits y ++ n

/-- The word an instruction assembles to (R53's table). -/
def encode : Instr → Word
  | .cls => 0x00E0
  | .ret => 0x00EE
  | .sys nnn => wordNnn 0x0 nnn
  | .jp nnn => wordNnn 0x1 nnn
  | .call nnn => wordNnn 0x2 nnn
  | .seVxKk x kk => wordXkk 0x3 x kk
  | .sneVxKk x kk => wordXkk 0x4 x kk
  | .seVxVy x y => wordXyn 0x5 x y 0x0
  | .ldVxKk x kk => wordXkk 0x6 x kk
  | .addVxKk x kk => wordXkk 0x7 x kk
  | .ldVxVy x y => wordXyn 0x8 x y 0x0
  | .or x y => wordXyn 0x8 x y 0x1
  | .and x y => wordXyn 0x8 x y 0x2
  | .xor x y => wordXyn 0x8 x y 0x3
  | .addVxVy x y => wordXyn 0x8 x y 0x4
  | .sub x y => wordXyn 0x8 x y 0x5
  | .shr x y => wordXyn 0x8 x y 0x6
  | .subn x y => wordXyn 0x8 x y 0x7
  | .shl x y => wordXyn 0x8 x y 0xE
  | .ldINnn nnn => wordNnn 0xA nnn
  | .drw x y n => wordXyn 0xD x y n

/-- The two bytes of an instruction, in the order memory holds them (R32, R45). -/
def encodeBytes (i : Instr) : List Byte := [highByte (encode i), lowByte (encode i)]

/-! ## The opcode map (R49) -/

/-- One row of R49: a word `op` selects it when `op AND mask = value`. -/
structure OpcodeRow where
  mnemonic : String
  value : Word
  mask : Word
  deriving DecidableEq, Repr

/-- The 21 rows of R49, in its order, the two FIX rows first, so that the first row a word selects is the one R49 means. -/
def opcodeTable : List OpcodeRow :=
  [⟨"CLS", 0x00E0, 0xFFFF⟩, ⟨"RET", 0x00EE, 0xFFFF⟩, ⟨"SYS", 0x0000, 0xF000⟩, ⟨"JP", 0x1000, 0xF000⟩,
   ⟨"CALL", 0x2000, 0xF000⟩, ⟨"SE_VX_KK", 0x3000, 0xF000⟩, ⟨"SNE_VX_KK", 0x4000, 0xF000⟩] ++
  [⟨"SE_VX_VY", 0x5000, 0xF00F⟩, ⟨"LD_VX_KK", 0x6000, 0xF000⟩, ⟨"ADD_VX_KK", 0x7000, 0xF000⟩,
   ⟨"LD_VX_VY", 0x8000, 0xF00F⟩, ⟨"OR", 0x8001, 0xF00F⟩, ⟨"AND", 0x8002, 0xF00F⟩, ⟨"XOR", 0x8003, 0xF00F⟩] ++
  [⟨"ADD_VX_VY", 0x8004, 0xF00F⟩, ⟨"SUB", 0x8005, 0xF00F⟩, ⟨"SHR", 0x8006, 0xF00F⟩, ⟨"SUBN", 0x8007, 0xF00F⟩,
   ⟨"SHL", 0x800E, 0xF00F⟩, ⟨"LD_I_NNN", 0xA000, 0xF000⟩, ⟨"DRW", 0xD000, 0xF000⟩]

/-- Whether a word selects a row. -/
def OpcodeRow.selects (row : OpcodeRow) (op : Word) : Bool := op &&& row.mask == row.value

/-- The row of R49 that a word selects, if any. -/
def selectedRow (op : Word) : Option OpcodeRow := opcodeTable.find? (fun row => row.selects op)

/-! ## The host's view of the table -/

/-- The instruction word that the table's bits `nbits-1 .. 0` of `w` stand for; the bits above them are 0
(notes/assumptions/27.md). Every row has 16 bits, so `w` numbers the bits as R8 does. -/
def tableWord (nbits w : Nat) : Word := BitVec.ofNat 16 (w % 2 ^ nbits)

/-- What the decoder reads from an instruction whose bits are `w`, laid out as memory holds it. -/
def decodeTableWord (nbits w : Nat) : Option Instr :=
  match decodeBytes [highByte (tableWord nbits w), lowByte (tableWord nbits w)] with
  | (.instr i, _) => some i
  | (.unknown _, _) => none

end Sys2Proof
end

