-- ==== Sys2Proof/Machine/State.lean ====
section
/-!
DEFINITION. The state of the core (spec/10_state.md R10 to R26) as plain data, the report of a step
(spec/60_exceptions.md R101), the reasons a step can stop, and the state after reset (R24, R120).
-/

namespace Sys2Proof.Machine

/-- Memory (R21, R30): the bytes that are not 0x00, by rising address. An address not listed reads 0x00, the value
`Reset` leaves (R24; notes/assumptions/14.md). -/
abbrev Memory := List Host.Cell

/-- The display (R20): 32 rows of 64 one-bit pixels, `FB[r][c]`. -/
abbrev Display := Vector (Vector Bool 64) 32

/-- The report of one step, `(code, addr, word)` (R101). -/
structure Report where
  /-- The 3-bit code of R100. -/
  code : BitVec 3
  /-- The address the word was fetched from. -/
  addr : Word
  /-- The word fetched, 0x0000 where none was. -/
  word : Word
  deriving DecidableEq, Repr

/-- The state of the core. `draws` and `report` are the model's own (INVENTORY.md '## State'); everything else is the
spec's. -/
structure State where
  /-- `V[0]` to `V[15]`; `V[15]` is VF (R10, R11). -/
  v : Vector Byte 16
  /-- The index register (R13). -/
  i : Word
  /-- The program counter (R14). -/
  pc : Word
  /-- `SP`, the number of stack entries held, 0 to 16 (R17). -/
  sp : Fin 17
  /-- `STK[0]` to `STK[15]` (R17). -/
  stk : Vector Word 16
  /-- The delay timer (R18). -/
  dt : Byte
  /-- The sound timer (R18). -/
  st : Byte
  /-- The display (R20). -/
  fb : Display
  /-- Memory (R21). -/
  mem : Memory
  /-- The `FAULT` latch (R22): 0, or the code of the fatal cause that halted the core. -/
  fault : BitVec 3
  /-- `LOADED` (R23). -/
  loaded : Bool
  /-- The model's own: the report of the latest `Step`, none before the first (R101; notes/assumptions/4.md). -/
  report : Option Report
  /-- The model's own: how many timer updates have been made, the argument of the free inputs of a step
  (R111; notes/assumptions/2.md and 3.md). -/
  draws : Nat
  deriving DecidableEq, Repr

/-- Why the machine stops with a fault of the host's kind. The spec's own errors are none of these: it describes the state
each of them leaves, so each is a next state (R103, R104; notes/assumptions/5.md). -/
inductive Fault where
  /-- A read of a byte that does not exist, at or above 0x1000 (R30). Raised by `fetchDecodeExecute` and `execDrw` where
  `MemRead` is undefined (R9); both test their bound first, so no step raises it. Safe: the model stops. -/
  | absentByte (addr : Nat)
  deriving DecidableEq, Repr

/-- Why a transaction has no meaning. -/
inductive Refusal where
  /-- An instruction that has no meaning yet; raised by `exec` only. Safe: the model stops. No arm raises it now. -/
  | notModelled (mnemonic : String)
  /-- A `Step` while `LOADED` = 0 (R124, D15); raised by `runCycle`. Safe: no step is defined for an unloaded core. -/
  | stepUnloaded
  /-- A `Load` while `LOADED` = 1 (R124, D15); raised by `load`. Safe: the source calls it undefined. -/
  | loadWhenLoaded
  deriving DecidableEq, Repr

/-- The display with every pixel 0 (R24, R91). -/
def Display.clear : Display := Vector.replicate 32 (Vector.replicate 64 false)

/-- The state right after reset (R24, R120): memory lists nothing, so every byte is 0x00. `pc` is the spec's decision D1
(notes/assumptions/1.md); `report` and `draws` are DESIGN CHOICE (notes/assumptions/4.md, 3.md). -/
def State.reset : State where
  v := Vector.replicate 16 0x00
  i := 0x0000
  pc := Config.pcReset
  sp := 0
  stk := Vector.replicate 16 0x0000
  dt := 0x00
  st := 0x00
  fb := Display.clear
  mem := []
  fault := 0
  loaded := false
  report := none
  draws := 0

end Sys2Proof.Machine
end

