-- ==== Sys2Proof/Machine/Ops.lean ====
section
/-!
DEFINITION. The named operations over memory, registers, stack and program counter (spec/00_scope.md R9), the two timers
(spec/60_exceptions.md R110), and what an error does: the latch of a fatal fault and the report of an unknown opcode
(R103, R104), with the halted step (R105). The hardware has no return from an error (R106).
-/

namespace Sys2Proof.Machine

/-! ## Memory (R9, R30, R32) -/

/-- The canonical form from address `lo` on: strictly rising addresses below 4096, no byte 0x00 listed. -/
def Memory.wfFrom : Nat → Memory → Bool
  | _, [] => true
  | lo, (a, b) :: m => decide (lo ≤ a) && decide (a < Config.memSize) && b != 0x00#8 && Memory.wfFrom (a + 1) m

/-- The canonical form of a memory. -/
def Memory.wf (m : Memory) : Bool := Memory.wfFrom 0 m

/-- What an unlisted address reads as: 0x00 (R24, R31; notes/assumptions/14.md). -/
def Memory.unlisted : Byte := 0x00

/-- The byte at an address (R9, `MemRead(addr, 1)` and `MEM[addr]`). -/
def Memory.read : Memory → Nat → Byte
  | [], _ => Memory.unlisted
  | (k, b) :: m, a => if k = a then b else Memory.read m a

/-- A byte put in its place, keeping the canonical form (R9, `MemWrite(addr, 1, v)`; the loader's alone, R39). -/
def Memory.write : Memory → Nat → Byte → Memory
  | [], a, v => if v = Memory.unlisted then [] else [(a, v)]
  | (k, b) :: m, a, v =>
    if k < a then (k, b) :: Memory.write m a v
    else if k = a then (if v = Memory.unlisted then m else (a, v) :: m)
    else if v = Memory.unlisted then (k, b) :: m else (a, v) :: (k, b) :: m

/-- Bytes written at rising addresses from `a` (R122's two loops). -/
def Memory.writeBytes : Memory → Nat → List Byte → Memory
  | m, _, [] => m
  | m, a, b :: bs => Memory.writeBytes (Memory.write m a b) (a + 1) bs

/-- The `n` bytes at `a`, `a+1`, ... in ascending order (R35). -/
def Memory.bytesFrom (m : Memory) : Nat → Nat → List Byte
  | _, 0 => []
  | a, n + 1 => Memory.read m a :: Memory.bytesFrom m (a + 1) n

/-- `n` bytes from `a`, defined only when all of them exist, `a + n <= 4096` (R9, R30). -/
def Memory.readBytes (m : Memory) (a n : Nat) : Option (List Byte) :=
  if a + n ≤ Config.memSize then some (Memory.bytesFrom m a n) else none

/-- The big-endian word at `a`, `a + 1`, defined only when both bytes exist (R9 `MemRead(addr, 2)`, R32). -/
def Memory.readWord (m : Memory) (a : Nat) : Option Word :=
  if a + 2 ≤ Config.memSize then some (wordOfBytes (Memory.read m a) (Memory.read m (a + 1))) else none

/-! ## Registers (R10, R13, R14) -/

/-- A read of general register `V[x]`. -/
def State.getV (s : State) (x : Reg) : Byte := s.v[x.val]

/-- A write of general register `V[x]`. -/
def State.setV (s : State) (x : Reg) (b : Byte) : State := { s with v := s.v.set x.val b }

/-- A write of the index register. -/
def State.setI (s : State) (w : Word) : State := { s with i := w }

/-- A write of the program counter. -/
def State.setPc (s : State) (w : Word) : State := { s with pc := w }

/-- A write of the display. -/
def State.setFb (s : State) (d : Display) : State := { s with fb := d }

/-- The advance by one word that the fetch stage and a taken skip make, modulo 65536 (R14, R64). -/
def State.advancePc (s : State) : State := { s with pc := s.pc + 2 }

/-- The address the instruction being executed was fetched from: `A`, while `PC = A + 2` (R14).
DEDUCED: `PC` holds `A + 2` at the execute stage and the addition is modulo 65536 (notes/assumptions/18.md). -/
def State.fetchedFrom (s : State) : Word := s.pc - 2

/-! ## Call stack (R17) -/

/-- Push: `STK[SP] <- w; SP <- SP + 1`, none when 16 entries are held. -/
def State.push? (s : State) (w : Word) : Option State :=
  if h : s.sp.val < 16 then
    some { s with stk := s.stk.set s.sp.val w, sp := ⟨s.sp.val + 1, by omega⟩ }
  else none

/-- Pop: `SP <- SP - 1; STK[SP]`, none when the stack is empty. The vacated slot keeps its bits. -/
def State.pop? (s : State) : Option (Word × State) :=
  if h : 0 < s.sp.val then
    some (s.stk[s.sp.val - 1], { s with sp := ⟨s.sp.val - 1, by omega⟩ })
  else none

/-! ## Timers (R110) -/

/-- One timer: down by exactly 1 when its deadline has passed and it is above 0. -/
def countDown (due : Bool) (t : Byte) : Byte := if t = 0x00#8 then 0x00#8 else if due then t - 1 else t

/-- The timer update at the start of a step. It uses up one draw of the free inputs (notes/assumptions/2.md). -/
def State.timerUpdate (dueDt dueSt : Bool) (s : State) : State :=
  { s with dt := countDown dueDt s.dt, st := countDown dueSt s.st, draws := s.draws + 1 }

/-! ## Errors and reports (R100 to R105) -/

/-- The four fatal causes (R100, R103). -/
inductive FatalCause where
  /-- 2nnn with 16 entries held. -/
  | stackOverflow
  /-- 00EE with an empty stack. -/
  | stackUnderflow
  /-- A fetch with `PC >= 4094`. -/
  | outOfBoundsFetch
  /-- Dxyn with `I + n > 4096`. -/
  | outOfBoundsSprite
  deriving DecidableEq, Repr

/-- The codes of R100. -/
def FatalCause.code : FatalCause → BitVec 3
  | .stackOverflow => 2
  | .stackUnderflow => 3
  | .outOfBoundsFetch => 4
  | .outOfBoundsSprite => 6

/-- Code 0 of R100: the step raised nothing. -/
def okCode : BitVec 3 := 0

/-- Code 5 of R100, reported and never latched (R104). -/
def unknownOpcodeCode : BitVec 3 := 5

/-- `raise <Fault>(addr, word)` (R9, R103): the code is latched in `FAULT` and reported; nothing else changes. This is all
the entry to an error that the hardware has: no saved register, no vector, no handler.
DESIGN CHOICE of the spec (its D2, D3, D4), safe: notes/assumptions/5.md. -/
def State.raise (s : State) (c : FatalCause) (addr word : Word) : State :=
  { s with fault := c.code, report := some ⟨c.code, addr, word⟩ }

/-- `report UnknownOpcode(addr, word)` (R9, R104): reported, nothing latched. -/
def State.reportUnknown (s : State) (addr word : Word) : State :=
  { s with report := some ⟨unknownOpcodeCode, addr, word⟩ }

/-- A step of a halted core: the report `(FAULT, 0x0000, 0x0000)` and no state change, timers included (R105).
DESIGN CHOICE of the spec (its D19), safe: notes/assumptions/5.md. -/
def State.haltedStep (s : State) : State := { s with report := some ⟨s.fault, 0x0000, 0x0000⟩ }

/-- The end of the fetch stage with the word `op` read: `PC` advanced, and the report the step gives unless something is
raised, `(0, A, op)` (R33, R47). -/
def State.fetched (s : State) (op : Word) : State :=
  { s.advancePc with report := some ⟨okCode, s.pc, op⟩ }

end Sys2Proof.Machine
end

