-- ==== Sys2Proof/Machine/Operands.lean ====
section
/-!
DEFINITION. The operand forms (spec/30_encoding.md R46): the registers `x` and `y` select, the immediate `kk`, the address
`nnn` and the sprite operand of Dxyn, whose effective addresses are `I`, ..., `I + n - 1` (spec/20_memory.md R35).
-/

namespace Sys2Proof.Machine

/-- VX: the value of the register the field `x` selects (R10). -/
def State.vx (s : State) (x : Reg) : Byte := s.getV x

/-- VY: the value of the register the field `y` selects (R10). -/
def State.vy (s : State) (y : Reg) : Byte := s.getV y

/-- An address operand, zero-extended to 16 bits (R46). -/
def addrOperand (nnn : Addr12) : Word := nnn.zeroExtend 16

/-- The height of a sprite in rows, 0 to 15 (R46). -/
def spriteHeight (n : Nibble) : Nat := n.toNat

/-- The address of the first sprite byte, as a natural number (R35, R36). -/
def State.spriteBase (s : State) : Nat := s.i.toNat

/-- Whether a sprite byte would lie above 0xFFF, computed without wrap-around (R36).
DESIGN CHOICE of the spec (its D9), safe: notes/assumptions/10.md. -/
def State.spriteOutOfBounds (s : State) (n : Nibble) : Bool :=
  decide (s.spriteBase + spriteHeight n > Config.memSize)

/-- The sprite's bytes, one per row, ascending (R35, R92). -/
def State.spriteRows (s : State) (n : Nibble) : Option (List Byte) :=
  Memory.readBytes s.mem s.spriteBase (spriteHeight n)

/-- The column of a sprite's origin, `VX mod 64` (R92). -/
def originColumn (vx : Byte) : Nat := vx.toNat % 64

/-- The row of a sprite's origin, `VY mod 32` (R92). -/
def originRow (vy : Byte) : Nat := vy.toNat % 32

end Sys2Proof.Machine
end

