-- ==== Sys2Proof/Machine/Flags.lean ====
section
/-!
DEFINITION. The results and flags of the ALU as pure functions of the operands (spec/42_alu.md R75, R80 to R85), and the
order in which they are written: VF first, then V[x] (R75).
-/

namespace Sys2Proof.Machine

/-- A flag as the 8-bit value VF receives: 0x00 or 0x01 (R11). -/
def flagByte (b : Bool) : Byte := if b then 0x01 else 0x00

/-- What a flag-writing ALU instruction computes before it writes anything: `(result, flag)` of R75. -/
structure AluResult where
  result : Byte
  flag : Bool
  deriving DecidableEq, Repr

/-- 8xy4: the 9-bit sum; the flag is its bit 8, the result its bits 7 to 0 (R80). -/
def addWithCarry (a b : Byte) : AluResult :=
  let sum : BitVec 9 := a.zeroExtend 9 + b.zeroExtend 9
  { result := sum.extractLsb' 0 8, flag := sum.getLsbD 8 }

/-- 8xy5 with `a = VX`, `b = VY`: `a - b` modulo 256; the flag is 1 when no borrow is needed (R81). -/
def subNoBorrow (a b : Byte) : AluResult := { result := a - b, flag := decide (b ≤ a) }

/-- 8xy6: `a >> 1`; the flag is the bit shifted out (R82). -/
def shiftRightOne (a : Byte) : AluResult := { result := a >>> 1, flag := a.getLsbD 0 }

/-- 8xyE: `a << 1` truncated to 8 bits; the flag is the bit shifted out (R84). -/
def shiftLeftOne (a : Byte) : AluResult := { result := a <<< 1, flag := a.getLsbD 7 }

/-- 7xkk: the sum modulo 256, with no flag (R71). -/
def addNoFlag (a b : Byte) : Byte := a + b

/-- The writes of a flag-writing ALU instruction: VF, then `V[x]`, so that with `x` = 15 the result stays (R75).
DESIGN CHOICE of the spec (its D7), unsafe: notes/assumptions/8.md. -/
def State.writeFlagged (s : State) (x : Reg) (r : AluResult) : State :=
  (s.setV Config.flagReg (flagByte r.flag)).setV x r.result

end Sys2Proof.Machine
end

