-- ==== Sys2Proof/Machine/Blit.lean ====
section
/-!
DEFINITION. The display controller: pixels by row and column (spec/10_state.md R20) and the sprite blit with its
per-pixel wrap and collision flag (spec/43_index_display.md R93 to R95).
-/

namespace Sys2Proof.Machine

/-- The pixel `FB[r][c]`. -/
def Display.pixel (d : Display) (r : Fin 32) (c : Fin 64) : Bool := (d[r.val])[c.val]

/-- The display with the pixel `FB[r][c]` set to `b`. -/
def Display.setPixel (d : Display) (r : Fin 32) (c : Fin 64) (b : Bool) : Display :=
  d.set r.val ((d[r.val]).set c.val b)

/-- A row coordinate wrapped modulo 32, per pixel (R93). -/
def wrapRow (r : Nat) : Fin 32 := Fin.ofNat 32 r

/-- A column coordinate wrapped modulo 64, per pixel (R93). -/
def wrapColumn (c : Nat) : Fin 64 := Fin.ofNat 64 c

/-- The sprite bit at horizontal offset `c`: `b[7 - c]`, the most significant bit leftmost (R94).
PRESUMED by the spec (its D8, general knowledge), unsafe: notes/assumptions/9.md. -/
def spriteBit (b : Byte) (c : Nat) : Bool := b.getLsbD (7 - c)

/-- What a blit has done so far: the display and whether a pixel went from 1 to 0. -/
structure BlitState where
  fb : Display
  coll : Bool
  deriving DecidableEq, Repr

/-- One pixel of R95's inner loop: row `y`, and column offset `c` from `x0`, of the sprite byte `b`. -/
def blitPixel (x0 y : Nat) (b : Byte) (acc : BlitState) (c : Nat) : BlitState :=
  let s := spriteBit b c
  let prow := wrapRow y
  let pcol := wrapColumn (x0 + c)
  let old := Display.pixel acc.fb prow pcol
  { fb := Display.setPixel acc.fb prow pcol (old ^^ s), coll := acc.coll || (old && s) }

/-- R95's inner loop: the eight bits of one sprite byte, at row `y`. -/
def blitByte (x0 y : Nat) (b : Byte) (acc : BlitState) : BlitState :=
  [0, 1, 2, 3, 4, 5, 6, 7].foldl (blitPixel x0 y b) acc

/-- R95's outer loop: the sprite bytes at rows `y`, `y + 1`, ... -/
def blitRows (x0 : Nat) : Nat → List Byte → BlitState → BlitState
  | _, [], acc => acc
  | y, b :: bs, acc => blitRows x0 (y + 1) bs (blitByte x0 y b acc)

/-- `Blit(x0, y0, rows)` (R95). -/
def blit (x0 y0 : Nat) (rows : List Byte) (d : Display) : BlitState := blitRows x0 y0 rows ⟨d, false⟩

end Sys2Proof.Machine
end

