-- ==== Sys2Proof/Machine/Alu.lean ====
section
/-!
DEFINITION. The meanings of 8xy0 to 8xy7 and 8xyE (spec/42_alu.md R76 to R84). Every operand is read from the state before
the instruction, whatever is then written (R75).
-/

namespace Sys2Proof.Machine

/-- 8xy0, LD Vx, Vy (R76). -/
def execLdVxVy (x y : Reg) (s : State) : Host.Outcome State Fault Refusal := .next (s.setV x (s.vy y))

/-- 8xy1, OR (R77). -/
def execOr (x y : Reg) (s : State) : Host.Outcome State Fault Refusal := .next (s.setV x (s.vx x ||| s.vy y))

/-- 8xy2, AND (R78). -/
def execAnd (x y : Reg) (s : State) : Host.Outcome State Fault Refusal := .next (s.setV x (s.vx x &&& s.vy y))

/-- 8xy3, XOR (R79). -/
def execXor (x y : Reg) (s : State) : Host.Outcome State Fault Refusal := .next (s.setV x (s.vx x ^^^ s.vy y))

/-- 8xy4, ADD Vx, Vy: VF = carry (R80). -/
def execAddVxVy (x y : Reg) (s : State) : Host.Outcome State Fault Refusal :=
  .next (s.writeFlagged x (addWithCarry (s.vx x) (s.vy y)))

/-- 8xy5, SUB: VF = no borrow (R81). -/
def execSub (x y : Reg) (s : State) : Host.Outcome State Fault Refusal :=
  .next (s.writeFlagged x (subNoBorrow (s.vx x) (s.vy y)))

/-- 8xy6, SHR: VF = the bit shifted out; `y` is ignored (R82). -/
def execShr (x _y : Reg) (s : State) : Host.Outcome State Fault Refusal :=
  .next (s.writeFlagged x (shiftRightOne (s.vx x)))

/-- 8xy7, SUBN: `VY - VX`, VF = no borrow (R83). -/
def execSubn (x y : Reg) (s : State) : Host.Outcome State Fault Refusal :=
  .next (s.writeFlagged x (subNoBorrow (s.vy y) (s.vx x)))

/-- 8xyE, SHL: VF = the bit shifted out; `y` is ignored (R84). -/
def execShl (x _y : Reg) (s : State) : Host.Outcome State Fault Refusal :=
  .next (s.writeFlagged x (shiftLeftOne (s.vx x)))

end Sys2Proof.Machine
end

