-- ==== Sys2Proof/Machine/ControlFlow.lean ====
section
/-!
DEFINITION. The meanings of 00EE, 0nnn, 1nnn, 2nnn, 3xkk, 4xkk and 5xy0 (spec/40_control_flow.md R60 to R66). `PC` is the
value the fetch stage left, `A + 2`.
-/

namespace Sys2Proof.Machine

/-- 00EE, RET (R60). -/
def execRet (s : State) : Host.Outcome State Fault Refusal :=
  match s.pop? with
  | none => .next (s.raise .stackUnderflow s.fetchedFrom (encode .ret))
  | some (target, s') => .next (s'.setPc target)

/-- 0nnn, SYS: no operation; `nnn` is ignored (R61). -/
def execSys (_nnn : Addr12) (s : State) : Host.Outcome State Fault Refusal := .next s

/-- 1nnn, JP (R62). -/
def execJp (nnn : Addr12) (s : State) : Host.Outcome State Fault Refusal := .next (s.setPc (addrOperand nnn))

/-- 2nnn, CALL: the pushed value is the advanced `PC` (R63). -/
def execCall (nnn : Addr12) (s : State) : Host.Outcome State Fault Refusal :=
  match s.push? s.pc with
  | none => .next (s.raise .stackOverflow s.fetchedFrom (encode (.call nnn)))
  | some s' => .next (s'.setPc (addrOperand nnn))

/-- Skip the next word when the condition holds (R64 to R66). -/
def State.skipIf (s : State) (cond : Bool) : State := if cond then s.advancePc else s

/-- 3xkk, SE Vx, byte (R64). -/
def execSeVxKk (x : Reg) (kk : Byte) (s : State) : Host.Outcome State Fault Refusal :=
  .next (s.skipIf (s.vx x == kk))

/-- 4xkk, SNE Vx, byte (R65). -/
def execSneVxKk (x : Reg) (kk : Byte) (s : State) : Host.Outcome State Fault Refusal :=
  .next (s.skipIf (s.vx x != kk))

/-- 5xy0, SE Vx, Vy (R66). -/
def execSeVxVy (x y : Reg) (s : State) : Host.Outcome State Fault Refusal :=
  .next (s.skipIf (s.vx x == s.vy y))

end Sys2Proof.Machine
end

