-- ==== Sys2Proof/Machine/IndexDisplay.lean ====
section
/-!
DEFINITION. The meanings of Annn, 00E0 and Dxyn (spec/43_index_display.md R90 to R92).
-/

namespace Sys2Proof.Machine

/-- Annn, LD I, addr: bits 15 to 12 of `I` become 0 (R90). -/
def execLdINnn (nnn : Addr12) (s : State) : Host.Outcome State Fault Refusal := .next (s.setI (addrOperand nnn))

/-- 00E0, CLS (R91). -/
def execCls (s : State) : Host.Outcome State Fault Refusal := .next (s.setFb Display.clear)

/-- Dxyn, DRW: the coordinates are read first, the bound is tested before any pixel changes, VF is written last (R92). -/
def execDrw (x y : Reg) (n : Nibble) (s : State) : Host.Outcome State Fault Refusal :=
  if s.spriteOutOfBounds n then
    .next (s.raise .outOfBoundsSprite s.fetchedFrom (encode (.drw x y n)))
  else
    match s.spriteRows n with
    | none => .fault (.absentByte (s.spriteBase + spriteHeight n))
    | some rows =>
      let drawn := blit (originColumn (s.vx x)) (originRow (s.vy y)) rows s.fb
      .next ((s.setFb drawn.fb).setV Config.flagReg (flagByte drawn.coll))

end Sys2Proof.Machine
end

