-- ==== Sys2Proof/Machine/RegisterImmediate.lean ====
section
/-!
DEFINITION. The meanings of 6xkk and 7xkk (spec/41_register_immediate.md R70, R71).
-/

namespace Sys2Proof.Machine

/-- 6xkk, LD Vx, byte (R70). -/
def execLdVxKk (x : Reg) (kk : Byte) (s : State) : Host.Outcome State Fault Refusal := .next (s.setV x kk)

/-- 7xkk, ADD Vx, byte: modulo 256, VF not written as a flag (R71). -/
def execAddVxKk (x : Reg) (kk : Byte) (s : State) : Host.Outcome State Fault Refusal :=
  .next (s.setV x (addNoFlag (s.vx x) kk))

end Sys2Proof.Machine
end

