-- ==== Sys2Proof/Machine/Cycle.lean ====
section
/-!
DEFINITION. The step cycle (spec/30_encoding.md R47): timer update, fetch (spec/20_memory.md R33), decode, execute; the
halted core (spec/60_exceptions.md R105) and the unloaded one (spec/70_reset_and_hazards.md R124). And placing a word where
the next step fetches it.
-/

namespace Sys2Proof.Machine

/-- A step of a loaded core after its timer update: fetch at `A = PC`, decode, execute (R33, R47, R48). -/
def fetchDecodeExecute (s : State) : Host.Outcome State Fault Refusal :=
  if Config.fetchLimit ≤ s.pc.toNat then .next (s.raise .outOfBoundsFetch s.pc 0x0000)
  else
    match Memory.readWord s.mem s.pc.toNat with
    | none => .fault (.absentByte (s.pc.toNat + 1))
    | some op =>
      match decodeWord op with
      | .unknown _ => .next ((s.fetched op).reportUnknown s.pc op)
      | .instr i => exec i (s.fetched op)

/-- `Step(due_dt, due_st)` (R47): refused on an unloaded core (R124, D15), without effect on a halted one (R105). The
report is left in `report`. -/
def runCycle (dueDt dueSt : Bool) (s : State) : Host.Outcome State Fault Refusal :=
  if s.loaded = false then .refused .stepUnloaded
  else if s.fault ≠ 0#3 then .next s.haltedStep
  else fetchDecodeExecute (s.timerUpdate dueDt dueSt)

/-- Where a word is placed so that the next step fetches it: at `PC`, or at the reset `PC` where no fetch at `PC` succeeds. -/
def placeAddress (s : State) : Word := if s.pc.toNat < Config.fetchLimit then s.pc else Config.pcReset

/-- The state with the word `op` where the next step fetches its instruction, on a core that is loaded and not halted
(notes/assumptions/16.md). -/
def placeWord (s : State) (op : Word) : State :=
  { s with
    mem := Memory.writeBytes s.mem (placeAddress s).toNat [highByte op, lowByte op]
    pc := placeAddress s
    loaded := true
    fault := 0 }

end Sys2Proof.Machine
end

