-- ==== Sys2Proof/Machine/Step.lean ====
section
/-!
DEFINITION. The step of the core (spec/30_encoding.md R47) with its two free inputs drawn (spec/60_exceptions.md R111), and
the state that fetches a given word next.
-/

namespace Sys2Proof.Machine

/-- One `Step`, with `due_dt` and `due_st` free at every step (R111; notes/assumptions/2.md). -/
def step (s : State) : Host.Outcome State Fault Refusal :=
  runCycle (Config.dueDelay s.draws) (Config.dueSound s.draws) s

/-- `s` with the table's instruction word placed where `step` fetches next (notes/assumptions/16.md and 27.md). -/
def State.withFetchWord (s : State) (nbits w : Nat) : State := placeWord s (tableWord nbits w)

end Sys2Proof.Machine
end

