-- ==== Sys2Proof/Machine/Transactions.lean ====
section
/-!
DEFINITION. The host's five transactions (spec/00_scope.md R6): `Reset` and `Load` (spec/70_reset_and_hazards.md R120,
R122, R124), `Step` with its two inputs given by the environment, `ReadFrameBuffer` (spec/43_index_display.md R98) and
`sound_gate` (spec/60_exceptions.md R113).
-/

namespace Sys2Proof.Machine

/-- `Reset()`, in any state (R120, D20). The draws of the free inputs go on (notes/assumptions/3.md). -/
def hostReset (s : State) : State := { State.reset with draws := s.draws }

/-- What `Load` answers (R122). -/
inductive LoadAnswer where
  /-- The program is loaded. -/
  | ok
  /-- Code 1 of R100: the program exceeds capacity; nothing was written. -/
  | loadError
  deriving DecidableEq, Repr

/-- Memory with a program image and then the font written (R122). -/
def Memory.withImage (m : Memory) (bytes : List Byte) : Memory :=
  Memory.writeBytes (Memory.writeBytes m Config.progBase bytes) Config.fontBase Config.font

/-- `Load(bytes)` (R122); refused on a loaded core (R124, D15; notes/assumptions/12.md). -/
def load (bytes : List Byte) (s : State) : Host.Outcome (LoadAnswer × State) Fault Refusal :=
  if s.loaded then .refused .loadWhenLoaded
  else if Config.progMax < bytes.length then .next (.loadError, s)
  else .next (.ok, { s with mem := Memory.withImage s.mem bytes, loaded := true })

/-- `ReadFrameBuffer()`: the pixel at a row and a column (R98, D21). -/
def readFrameBuffer (s : State) (r : Fin 32) (c : Fin 64) : Bool := Display.pixel s.fb r c

/-- `sound_gate`: 1 while `ST` is not 0 (R113, D13). -/
def soundGate (s : State) : Bool := s.st != 0x00#8

/-- A transaction of the host (R6). -/
inductive HostCall where
  | reset
  | load (bytes : List Byte)
  | step (dueDt dueSt : Bool)
  | readFrameBuffer
  | soundGate
  deriving DecidableEq, Repr

/-- What the core hands back (R126's table). -/
inductive Answer where
  | nothing
  | load (a : LoadAnswer)
  | report (r : Option Report)
  | frameBuffer (d : Display)
  | level (b : Bool)
  deriving DecidableEq, Repr

/-- The answer of a `Step` that ended in the given outcome. -/
def answerStep : Host.Outcome State Fault Refusal → Host.Outcome (Answer × State) Fault Refusal
  | .next t => .next (.report t.report, t)
  | .fault f => .fault f
  | .refused r => .refused r

/-- The answer of a `Load` that ended in the given outcome. -/
def answerLoad : Host.Outcome (LoadAnswer × State) Fault Refusal → Host.Outcome (Answer × State) Fault Refusal
  | .next (a, t) => .next (.load a, t)
  | .fault f => .fault f
  | .refused r => .refused r

/-- One transaction, atomic (R6): its answer and the state after it. -/
def transact (call : HostCall) (s : State) : Host.Outcome (Answer × State) Fault Refusal :=
  match call with
  | .reset => .next (.nothing, hostReset s)
  | .load bytes => answerLoad (load bytes s)
  | .step dueDt dueSt => answerStep (runCycle dueDt dueSt s)
  | .readFrameBuffer => .next (.frameBuffer s.fb, s)
  | .soundGate => .next (.level (soundGate s), s)

end Sys2Proof.Machine
end

