-- ==== Sys2Proof/Safety.lean ====
section
/-!
DEFINITION. The terms claims about a run use: FAULTED and PARKED (spec/70_reset_and_hazards.md R131, the spec's D23,
notes/assumptions/25.md), the running core, and the invariants of spec/10_state.md R25 and R128.
-/

namespace Sys2Proof.Machine

/-- A core that a `Step` runs an instruction on: loaded and not halted (R47). -/
def State.running (s : State) : Bool := s.loaded && s.fault == 0#3

/-- FAULTED (R131): never a successful end. -/
def State.faulted (s : State) : Bool := s.fault != 0#3

/-- The word at `PC` as a natural number: big-endian (R32). -/
def State.wordAtPc (s : State) : Nat :=
  256 * (Memory.read s.mem s.pc.toNat).toNat + (Memory.read s.mem (s.pc.toNat + 1)).toNat

/-- PARKED at `a` (R131): `PC = a`, `a` at most 4093, and the word at `a` is a jump to `a`. -/
def State.parkedAt (s : State) (a : Nat) : Bool :=
  s.pc.toNat == a && decide (a ≤ 4093) && s.wordAtPc == 0x1000 + a

/-- The values `FAULT` can latch (R22). -/
def faultLatchValue (f : BitVec 3) : Bool := f == 0#3 || f == 2#3 || f == 3#3 || f == 4#3 || f == 6#3

/-- A predicate of every live stack entry, `STK[0]` to `STK[SP-1]` (R17). -/
def State.liveEntries (s : State) (p : Word → Bool) : Bool := (s.stk.toList.take s.sp.val).all p

/-- R25's invariants of the states reached from reset, with the latch values of R22 and the canonical form of memory. -/
structure State.Reachable (s : State) : Prop where
  index : s.i.toNat ≤ 0x0FFF
  pc : s.pc.toNat ≤ 0x1001
  stack : s.liveEntries (fun w => decide (0x0002 ≤ w.toNat ∧ w.toNat ≤ 0x0FFF)) = true
  delayTimer : s.dt = 0x00#8
  soundTimer : s.st = 0x00#8
  latch : faultLatchValue s.fault = true
  memory : Memory.wf s.mem = true

/-- R128's invariant: `PC` and every live return address are even. -/
structure State.EvenPc (s : State) : Prop where
  pc : s.pc.toNat % 2 = 0
  stack : s.liveEntries (fun w => decide (w.toNat % 2 = 0)) = true

end Sys2Proof.Machine
end

