-- ==== Sys2Proof/Certificates/Slice0/Obligations.lean ====
section
/-!
DEFINITION. The statements for the provers, from the numbered rules of spec/. A statement that rests on a decision the spec
marks as its own (92_eei_decisions.md) says so in its docstring and names the decision and the assumption log entry.
-/

open Sys2Proof Sys2Proof.Machine

/-! ## Terms the statements share -/

/-- Two outcomes of one kind: next states related by `R`, the same fault, or the same refusal. -/
def Sys2Proof.Claims.outcomesAgree (R : State → State → Prop) :
    Host.Outcome State Fault Refusal → Host.Outcome State Fault Refusal → Prop
  | .next s, .next t => R s t
  | .fault f, .fault g => f = g
  | .refused p, .refused q => p = q
  | _, _ => False

/-- `s` and `t` differ at most in stack slots that hold no entry, at index `SP` and above. -/
def Sys2Proof.Claims.sameButStaleSlots (s t : State) : Prop :=
  t = { s with stk := t.stk } ∧ ∀ (j : Nat) (h : j < 16), j < s.sp.val → t.stk[j] = s.stk[j]

/-- `s` and `t` differ at most in the two timers and in the count of timer updates. -/
def Sys2Proof.Claims.sameButTimers (s t : State) : Prop :=
  t = { s with dt := t.dt, st := t.st, draws := t.draws }

/-- `t` has the general registers, `I`, the stack, the display and memory of `s`. -/
def Sys2Proof.Claims.sameButPcTimersStatus (s t : State) : Prop :=
  t.v = s.v ∧ t.i = s.i ∧ t.sp = s.sp ∧ t.stk = s.stk ∧ t.fb = s.fb ∧ t.mem = s.mem

/-- The operand fields of an instruction stand at the bits of the word that R46 gives them, written as natural numbers. -/
def Sys2Proof.Claims.fieldsStandIn (op : Word) : Instr → Prop
  | .cls => op.toNat = 0x00E0
  | .ret => op.toNat = 0x00EE
  | .sys nnn | .jp nnn | .call nnn | .ldINnn nnn => nnn.toNat = op.toNat % 4096
  | .seVxKk x kk | .sneVxKk x kk | .ldVxKk x kk | .addVxKk x kk =>
    x.val = op.toNat / 256 % 16 ∧ kk.toNat = op.toNat % 256
  | .seVxVy x y | .ldVxVy x y | .or x y | .and x y | .xor x y | .addVxVy x y | .sub x y | .shr x y | .subn x y
  | .shl x y => x.val = op.toNat / 256 % 16 ∧ y.val = op.toNat / 16 % 16
  | .drw x y n => x.val = op.toNat / 256 % 16 ∧ y.val = op.toNat / 16 % 16 ∧ n.toNat = op.toNat % 16

/-- The general registers an instruction may write: R10's rows "write V[x]" and "write V[15] as flag". -/
def Sys2Proof.Claims.mayWrite : Instr → List Reg
  | .ldVxKk x _ | .addVxKk x _ | .ldVxVy x _ | .or x _ | .and x _ | .xor x _ => [x]
  | .addVxVy x _ | .sub x _ | .shr x _ | .subn x _ | .shl x _ => [x, 15]
  | .drw _ _ _ => [15]
  | .cls | .ret | .sys _ | .jp _ | .call _ | .seVxKk _ _ | .sneVxKk _ _ | .seVxVy _ _ | .ldINnn _ => []

/-- The address after a step that executes `i` fetched at `A = s.pc`: R15's table, `s` the state before the step. -/
def Sys2Proof.Claims.pcAfter (s : State) : Instr → Word
  | .jp nnn => BitVec.ofNat 16 nnn.toNat
  | .call nnn => if s.sp = 16 then s.pc + 2 else BitVec.ofNat 16 nnn.toNat
  | .ret => if s.sp = 0 then s.pc + 2 else s.stk[s.sp.val - 1]
  | .seVxKk x kk => if s.getV x = kk then s.pc + 4 else s.pc + 2
  | .sneVxKk x kk => if s.getV x = kk then s.pc + 2 else s.pc + 4
  | .seVxVy x y => if s.getV x = s.getV y then s.pc + 4 else s.pc + 2
  | .cls | .sys _ | .ldVxKk _ _ | .addVxKk _ _ | .ldVxVy _ _ | .or _ _ | .and _ _ | .xor _ _ | .addVxVy _ _ | .sub _ _
  | .shr _ _ | .subn _ _ | .shl _ _ | .ldINnn _ | .drw _ _ _ => s.pc + 2

/-- The sprite bit that Dxyn lays on row `r`, column `c`: with the wrap of R93 the row offset is `r - VY` modulo 32 and the
column offset `c - VX` modulo 64; the byte is `MEM[I + row offset]`, the bit `7 - column offset` (R94, the spec's D8). -/
def Sys2Proof.Claims.spriteOver (s : State) (x y : Reg) (n : Nibble) (r : Fin 32) (c : Fin 64) : Bool :=
  let dr := (r.val + 32 - (s.getV y).toNat % 32) % 32
  let dc := (c.val + 64 - (s.getV x).toNat % 64) % 64
  decide (dr < n.toNat) && decide (dc < 8) && (Memory.read s.mem (s.i.toNat + dr)).getLsbD (7 - dc)

/-! ## Encoding -/

/-- Every instruction that has a word decodes from it, with every operand at every value (R45 to R49, R53). That a word
0nnn other than 00E0 and 00EE is SYS is the spec's decision D17 (log entry 21). -/
def Obligations.DecodeOfEncodeIsTheInstruction : Prop :=
  ∀ i : Instr, i.wellFormed = true → decodeWord (encode i) = .instr i

/-- A word that decodes to an instruction is the word of that instruction, and the instruction is well formed: no bit of a
word is lost (R45 to R49, R53). Which words decode is the spec's decision D17 (log entry 21). -/
def Obligations.EncodeOfDecodeIsTheWord : Prop :=
  ∀ (op : Word) (i : Instr), decodeWord op = .instr i → encode i = op ∧ i.wellFormed = true

/-- Decode by nibbles (R48) and the opcode map by match and mask (R49) agree on every word: the decoded instruction is the
one of the first row the word selects, and a word that selects no row is an unknown opcode. That the patterns are read
literally is the spec's decision D17 (log entry 21). -/
def Obligations.DecodeSelectsTheRowOfTheOpcodeMap : Prop :=
  ∀ op : Word, (selectedRow op).map OpcodeRow.mnemonic =
    match decodeWord op with
    | .instr i => some i.mnemonic
    | .unknown _ => none

/-- The unknown words are exactly those of R52's table. The literal reading of the patterns is the spec's decision D17
(log entry 21). -/
def Obligations.UnknownWordsAreExactlyTheListedOnes : Prop :=
  ∀ op : Word, (∃ why, decodeWord op = .unknown why) ↔
    (op.toNat / 4096 = 0x5 ∧ op.toNat % 16 ≠ 0) ∨
    (op.toNat / 4096 = 0x8 ∧ 0x8 ≤ op.toNat % 16 ∧ op.toNat % 16 ≠ 0xE) ∨
    op.toNat / 4096 = 0x9 ∨ op.toNat / 4096 = 0xB ∨ op.toNat / 4096 = 0xC ∨ op.toNat / 4096 = 0xE ∨
    op.toNat / 4096 = 0xF

/-- The operand fields come from the bits R46 gives them. -/
def Obligations.OperandFieldsStandAtTheirBits : Prop :=
  ∀ (op : Word) (i : Instr), decodeWord op = .instr i → Sys2Proof.Claims.fieldsStandIn op i

/-- Words of every family (R48: nibble 0 of the word) that holds an instruction, 0 to 8, A and D, written out from R49 and
R53, decode to the instructions they stand for. That 00E1 is SYS is the spec's decision D17 (log entry 21). -/
def Obligations.SampleWordsOfEveryFamilyDecode : Prop :=
  decodeWord 0x00E0 = .instr .cls ∧ decodeWord 0x00EE = .instr .ret ∧ decodeWord 0x00E1 = .instr (.sys 0x0E1) ∧
  decodeWord 0x1ABC = .instr (.jp 0xABC) ∧ decodeWord 0x2200 = .instr (.call 0x200) ∧
  decodeWord 0x3A7F = .instr (.seVxKk 10 0x7F) ∧ decodeWord 0x4F00 = .instr (.sneVxKk 15 0x00) ∧
  decodeWord 0x5AB0 = .instr (.seVxVy 10 11) ∧ decodeWord 0x6C12 = .instr (.ldVxKk 12 0x12) ∧
  decodeWord 0x7DFF = .instr (.addVxKk 13 0xFF) ∧
  decodeWord 0x8124 = .instr (.addVxVy 1 2) ∧ decodeWord 0x812E = .instr (.shl 1 2) ∧
  decodeWord 0xA123 = .instr (.ldINnn 0x123) ∧ decodeWord 0xD015 = .instr (.drw 0 1 5)

/-- SHR and SHL ignore `y`; every word 0x0000 to 0x0FFF but 0x00E0 and 0x00EE is a no-op, whatever `nnn`, and none of them
is an unknown opcode (R51). That the pattern 0nnn takes all of these words is the spec's decision D17 (log entry 21). -/
def Obligations.IgnoredFieldsChangeNothing : Prop :=
  (∀ (x y y' : Reg) (s : State), exec (.shr x y) s = exec (.shr x y') s) ∧
  (∀ (x y y' : Reg) (s : State), exec (.shl x y) s = exec (.shl x y') s) ∧
  (∀ op : Word, op.toNat ≤ 0x0FFF → op.toNat ≠ 0x00E0 → op.toNat ≠ 0x00EE →
    ∃ nnn, decodeWord op = .instr (.sys nnn)) ∧
  (∀ (nnn : Addr12) (s : State), exec (.sys nnn) s = .next s)

/-! ## The step cycle -/

/-- A step of a running core whose word at `PC` (big-endian, R32; at an even or an odd `PC`, R34) decodes to `i` is the
timer update, the fetch, which advances `PC` by 2, and then exactly `exec i` (R47). `step` is that step with the free
inputs drawn, and `report` holds `(0, A, op)` unless `i` raises something. The report's form is the spec's decision D4
(log entry 4), the fetch at an odd `PC` its D6 (log entry 7), the free inputs its D11 (log entry 2). -/
def Obligations.StepRunsTheDecodedInstruction : Prop :=
  ∀ (dueDt dueSt : Bool) (s : State) (i : Instr), s.running = true → s.pc.toNat < 4094 →
    decodeWord (BitVec.ofNat 16 s.wordAtPc) = .instr i →
    runCycle dueDt dueSt s = exec i { (State.timerUpdate dueDt dueSt s) with
      pc := s.pc + 2, report := some ⟨0, s.pc, BitVec.ofNat 16 s.wordAtPc⟩ } ∧
    step s = exec i { (State.timerUpdate (Config.dueDelay s.draws) (Config.dueSound s.draws) s) with
      pc := s.pc + 2, report := some ⟨0, s.pc, BitVec.ofNat 16 s.wordAtPc⟩ }

/-- An unknown opcode is reported and skipped: the timer update, `PC` = `A + 2`, the report `(5, A, op)`, nothing latched,
and nothing else (R52, R104). Which words are unknown is D17, the report's form D4, the fetch at an odd
`PC` D6 (log entries 21, 4, 7). -/
def Obligations.UnknownOpcodeIsReportedAndSkipped : Prop :=
  ∀ (dueDt dueSt : Bool) (s : State) (why : UnknownWord), s.running = true → s.pc.toNat < 4094 →
    decodeWord (BitVec.ofNat 16 s.wordAtPc) = .unknown why →
    runCycle dueDt dueSt s = .next { (State.timerUpdate dueDt dueSt s) with
      pc := s.pc + 2, report := some ⟨5, s.pc, BitVec.ofNat 16 s.wordAtPc⟩ }

/-- A fetch with `PC >= 4094` faults: code 4 latched and reported with `A` and 0x0000, `PC` unchanged, the timer update
kept, nothing else (R33, R103). The bound 4094 is the spec's decision D5, the state left its D3, the code and
the report its D2 and D4 (log entries 6, 5, 4). -/
def Obligations.FetchAtOrAboveTheLimitFaults : Prop :=
  ∀ (dueDt dueSt : Bool) (s : State), s.running = true → 4094 ≤ s.pc.toNat →
    runCycle dueDt dueSt s = .next { (State.timerUpdate dueDt dueSt s) with
      fault := 4, report := some ⟨4, s.pc, 0x0000⟩ }

/-- A halted core stays as it is for any number of steps: only the report becomes `(FAULT, 0x0000, 0x0000)` (R105). The
halt is the spec's decision D3, the inert step its D19 (log entry 5), the report's form its D4 (log entry 4). -/
def Obligations.HaltedCoreStaysHalted : Prop :=
  ∀ (k : Nat) (s : State), s.loaded = true → s.fault ≠ 0 →
    Host.Core.run Sys2Proof.core (k + 1) s = .next { s with report := some ⟨s.fault, 0x0000, 0x0000⟩ }

/-- A `Step` is refused exactly on an unloaded core, by its own name, and on every loaded core it answers a next state: no
step ends in a fault of the host's kind, so no access to a byte that does not exist is made (R30, R124). The refusal is the
spec's decision D15 (log entry 12), and the answer of a halted core its D19 (log entry 5). -/
def Obligations.StepAnswersExactlyWhenLoaded : Prop :=
  ∀ (dueDt dueSt : Bool) (s : State),
    (s.loaded = false → runCycle dueDt dueSt s = .refused .stepUnloaded ∧ step s = .refused .stepUnloaded) ∧
    (s.loaded = true → (∃ t, runCycle dueDt dueSt s = .next t) ∧ ∃ t, step s = .next t)

/-- The report of a step of a running core (R100 to R102): the address is `A`, the word is the one fetched (0x0000 where
none was), the code is the one of R100's table, and `FAULT` latches it when it is fatal. The codes, the latch and the
triple are the spec's decisions D2 and D4, the sprite bound its D9, the fetch bound its D5, the unknown words its D17 (log
entries 5, 4, 10, 6, 21). -/
def Obligations.EveryStepReportsItsCause : Prop :=
  ∀ (dueDt dueSt : Bool) (s t : State), s.running = true → runCycle dueDt dueSt s = .next t →
    ∃ r, t.report = some r ∧ r.addr = s.pc ∧
      r.word = (if s.pc.toNat < 4094 then BitVec.ofNat 16 s.wordAtPc else 0x0000) ∧
      (r.code = 2 ↔ s.pc.toNat < 4094 ∧ s.sp = 16 ∧ ∃ nnn, decodeWord (BitVec.ofNat 16 s.wordAtPc) = .instr (.call nnn)) ∧
      (r.code = 3 ↔ s.pc.toNat < 4094 ∧ s.sp = 0 ∧ decodeWord (BitVec.ofNat 16 s.wordAtPc) = .instr .ret) ∧
      (r.code = 4 ↔ 4094 ≤ s.pc.toNat) ∧
      (r.code = 5 ↔ s.pc.toNat < 4094 ∧ ∃ why, decodeWord (BitVec.ofNat 16 s.wordAtPc) = .unknown why) ∧
      (r.code = 6 ↔ s.pc.toNat < 4094 ∧ ∃ x y n, decodeWord (BitVec.ofNat 16 s.wordAtPc) = .instr (.drw x y n) ∧
        4096 < s.i.toNat + n.toNat) ∧
      r.code ≠ 1 ∧ r.code ≠ 7 ∧
      t.fault = (if r.code = 5 then 0 else r.code)

/-- The timer update (R110): once in every step of a loaded core that is not halted, whatever the step then does, each timer
goes down by exactly 1 when it is due and above 0, and otherwise keeps its value. The form of one input and at most one
decrement a timer a step is the spec's decision D11 (log entry 2), and that nothing else in the step writes a timer, so that
the update's values stand after it, its D12 (R112, log entry 23). -/
def Obligations.TimersCountDownOncePerStep : Prop :=
  ∀ (dueDt dueSt : Bool) (s t : State), s.running = true → runCycle dueDt dueSt s = .next t →
    t.dt.toNat = (if dueDt = true ∧ 0 < s.dt.toNat then s.dt.toNat - 1 else s.dt.toNat) ∧
    t.st.toNat = (if dueSt = true ∧ 0 < s.st.toNat then s.st.toNat - 1 else s.st.toNat)

/-! ## Control flow -/

/-- 0nnn does nothing (R61): its words decode to it, and it leaves every piece of state, the report of code 0 included.
That every 0nnn but 00E0 and 00EE is this no-op is the spec's decision D17 (log entry 21). -/
def Obligations.SysIsANoOp : Prop :=
  (∀ op : Word, op.toNat / 4096 = 0x0 → op.toNat ≠ 0x00E0 → op.toNat ≠ 0x00EE →
    decodeWord op = .instr (.sys (BitVec.ofNat 12 op.toNat))) ∧
  (∀ (nnn : Addr12) (s : State), exec (.sys nnn) s = .next s)

/-- 1nnn puts `nnn`, zero-extended, into `PC` and changes nothing else (R62), odd targets included: that the core does not
check them is the spec's decision D6 (R16, log entry 7). -/
def Obligations.JumpLoadsPc : Prop :=
  (∀ op : Word, op.toNat / 4096 = 0x1 → decodeWord op = .instr (.jp (BitVec.ofNat 12 op.toNat))) ∧
  (∀ (nnn : Addr12) (s : State), exec (.jp nnn) s = .next { s with pc := BitVec.ofNat 16 nnn.toNat })

/-- 3xkk and 4xkk (R64, R65): `PC` goes on by 2 when the condition holds, nothing else changes, and of the two with the same
`x` and `kk` exactly one skips. That `PC + 2` is modulo 65536 agrees with the spec's decision D22 (log entry 19). -/
def Obligations.SkipOnImmediate : Prop :=
  (∀ op : Word, op.toNat / 4096 = 0x3 →
    decodeWord op = .instr (.seVxKk (Fin.ofNat 16 (op.toNat / 256)) (BitVec.ofNat 8 op.toNat))) ∧
  (∀ op : Word, op.toNat / 4096 = 0x4 →
    decodeWord op = .instr (.sneVxKk (Fin.ofNat 16 (op.toNat / 256)) (BitVec.ofNat 8 op.toNat))) ∧
  (∀ (x : Reg) (kk : Byte) (s : State),
    exec (.seVxKk x kk) s = .next { s with pc := if s.getV x = kk then s.pc + 2 else s.pc } ∧
    exec (.sneVxKk x kk) s = .next { s with pc := if s.getV x = kk then s.pc else s.pc + 2 })

/-- 5xy0 (R66): `PC` goes on by 2 when the two registers are equal, and nothing else changes; with `x` = `y` it always
skips. That 5xyN with N not 0 is an unknown opcode is the spec's decision D17, the literal reading of the patterns (log
entry 21), and that `PC + 2` is modulo 65536 agrees with its D22 (log entry 19). -/
def Obligations.SkipOnEqualRegisters : Prop :=
  (∀ op : Word, op.toNat / 4096 = 0x5 → op.toNat % 16 = 0 →
    decodeWord op = .instr (.seVxVy (Fin.ofNat 16 (op.toNat / 256)) (Fin.ofNat 16 (op.toNat / 16)))) ∧
  (∀ op : Word, op.toNat / 4096 = 0x5 → op.toNat % 16 ≠ 0 → ∃ why, decodeWord op = .unknown why) ∧
  (∀ (x y : Reg) (s : State),
    exec (.seVxVy x y) s = .next { s with pc := if s.getV x = s.getV y then s.pc + 2 else s.pc }) ∧
  (∀ (x : Reg) (s : State), exec (.seVxVy x x) s = .next { s with pc := s.pc + 2 })

/-- 00EE with a stack that is not empty: `SP` goes down by one and `PC` receives the newest entry whole (R60). That the
vacated slot keeps its bits is the spec's own representation, its D14 (log entry 13). -/
def Obligations.ReturnPopsIntoPc : Prop :=
  ∀ s : State, ∀ h : 0 < s.sp.val,
    exec .ret s = .next { s with
      sp := ⟨s.sp.val - 1, Nat.lt_of_le_of_lt (Nat.sub_le _ _) s.sp.isLt⟩,
      pc := s.stk[s.sp.val - 1]'(by have := s.sp.isLt; omega) }

/-- 00EE with an empty stack: StackUnderflow, code 3 latched and reported with the instruction's address and word, and
nothing else (R60, R103). The codes, latch and report are the spec's D2, D3, D4 (log entries 4, 5, 18). -/
def Obligations.ReturnOnEmptyStackFaults : Prop :=
  ∀ s : State, s.sp = 0 → exec .ret s = .next { s with fault := 3, report := some ⟨3, s.pc - 2, 0x00EE⟩ }

/-- 2nnn with fewer than 16 entries held: the advanced `PC` goes into `STK[SP]`, `SP` goes up by one, `PC` receives `nnn`
zero-extended, and every other slot and piece of state is unchanged (R63). The representation is the spec's decision D14
(log entry 13), and that an odd target is accepted its D6 (R16, log entry 7). -/
def Obligations.CallPushesTheAdvancedPc : Prop :=
  ∀ (nnn : Addr12) (s : State), s.sp.val < 16 → ∃ t,
    exec (.call nnn) s = .next t ∧ t.pc = BitVec.ofNat 16 nnn.toNat ∧ t.sp.val = s.sp.val + 1 ∧
    (∀ (j : Nat) (h : j < 16), t.stk[j] = if j = s.sp.val then s.pc else s.stk[j]) ∧
    t = { s with pc := t.pc, sp := t.sp, stk := t.stk }

/-- 2nnn with 16 entries held: StackOverflow, code 2 latched and reported, `PC` not loaded, nothing pushed, nothing else
(R63, R103). The codes, latch and report are the spec's D2, D3, D4 (log entries 4, 5, 18). -/
def Obligations.CallOnFullStackFaults : Prop :=
  ∀ (nnn : Addr12) (s : State), s.sp = 16 →
    exec (.call nnn) s = .next { s with fault := 2, report := some ⟨2, s.pc - 2, BitVec.ofNat 16 (0x2000 + nnn.toNat)⟩ }

/-- A call and the return that answers it: `PC` is what it was after the call's own fetch, and the stack holds what it held
(R63, the source's testable property S8). The representation of the stack is the spec's decision D14 (log entry 13). -/
def Obligations.ReturnResumesAfterTheCall : Prop :=
  ∀ (nnn : Addr12) (s : State), s.sp.val < 16 → ∃ t u,
    exec (.call nnn) s = .next t ∧ exec .ret t = .next u ∧ u.pc = s.pc ∧ u.sp = s.sp ∧
    Sys2Proof.Claims.sameButStaleSlots s u

/-! ## Register and immediate -/

/-- 6xkk (R70): `V[x]` receives `kk`, for all 256 values and all 16 registers, VF included, and nothing else changes. -/
def Obligations.LoadImmediateSetsVx : Prop :=
  (∀ op : Word, op.toNat / 4096 = 0x6 →
    decodeWord op = .instr (.ldVxKk (Fin.ofNat 16 (op.toNat / 256)) (BitVec.ofNat 8 op.toNat))) ∧
  (∀ (x : Reg) (kk : Byte) (s : State), ∃ t, exec (.ldVxKk x kk) s = .next t ∧ t.getV x = kk ∧
    (∀ r, r ≠ x → t.getV r = s.getV r) ∧ t = { s with v := t.v })

/-- 7xkk (R71): `V[x]` receives the sum modulo 256; VF is not written as a flag, and nothing else changes. -/
def Obligations.AddImmediateWrapsWithoutFlag : Prop :=
  (∀ op : Word, op.toNat / 4096 = 0x7 →
    decodeWord op = .instr (.addVxKk (Fin.ofNat 16 (op.toNat / 256)) (BitVec.ofNat 8 op.toNat))) ∧
  (∀ (x : Reg) (kk : Byte) (s : State), ∃ t, exec (.addVxKk x kk) s = .next t ∧
    (t.getV x).toNat = ((s.getV x).toNat + kk.toNat) % 256 ∧
    (∀ r, r ≠ x → t.getV r = s.getV r) ∧ t = { s with v := t.v })

/-! ## ALU -/

/-- 8xy0 (R76): `V[x]` receives `V[y]`, and nothing else changes: VF neither, unless `x` = 15. -/
def Obligations.CopyRegister : Prop :=
  ∀ (x y : Reg) (s : State), ∃ t, exec (.ldVxVy x y) s = .next t ∧ t.getV x = s.getV y ∧
    (∀ r, r ≠ x → t.getV r = s.getV r) ∧ t = { s with v := t.v }

/-- 8xy1, 8xy2, 8xy3 (R77, R78, R79): `V[x]` receives the OR, AND, exclusive OR, bit by bit; VF is not written unless
`x` = 15, and nothing else changes. -/
def Obligations.BitwiseOperations : Prop :=
  ∀ (x y : Reg) (s : State),
    (∃ t, exec (.or x y) s = .next t ∧
      (∀ j, j < 8 → (t.getV x).getLsbD j = ((s.getV x).getLsbD j || (s.getV y).getLsbD j)) ∧
      (∀ r, r ≠ x → t.getV r = s.getV r) ∧ t = { s with v := t.v }) ∧
    (∃ t, exec (.and x y) s = .next t ∧
      (∀ j, j < 8 → (t.getV x).getLsbD j = ((s.getV x).getLsbD j && (s.getV y).getLsbD j)) ∧
      (∀ r, r ≠ x → t.getV r = s.getV r) ∧ t = { s with v := t.v }) ∧
    (∃ t, exec (.xor x y) s = .next t ∧
      (∀ j, j < 8 → (t.getV x).getLsbD j = ((s.getV x).getLsbD j ^^ (s.getV y).getLsbD j)) ∧
      (∀ r, r ≠ x → t.getV r = s.getV r) ∧ t = { s with v := t.v })

/-- 8xy4 (R80, R85): the sum modulo 256 in `V[x]`, the carry in VF, both from the operands before the instruction. With
`x` = 15 the sum stays in VF and the carry is lost: that, and `y` = 15 reading the old VF, is the spec's decision D7
(log entry 8). -/
def Obligations.AddWritesCarry : Prop :=
  ∀ (x y : Reg) (s : State), ∃ t, exec (.addVxVy x y) s = .next t ∧
    (t.getV x).toNat = ((s.getV x).toNat + (s.getV y).toNat) % 256 ∧
    (x ≠ 15 → t.getV 15 = if 255 < (s.getV x).toNat + (s.getV y).toNat then 0x01 else 0x00) ∧
    (∀ r, r ≠ x → r ≠ 15 → t.getV r = s.getV r) ∧ t = { s with v := t.v }

/-- 8xy5 (R81, R85): `VX - VY` modulo 256 in `V[x]`, and VF = 1 exactly when no borrow is needed. The cases `x` = 15 and
`y` = 15 are the spec's decision D7 (log entry 8). -/
def Obligations.SubtractWritesNoBorrow : Prop :=
  ∀ (x y : Reg) (s : State), ∃ t, exec (.sub x y) s = .next t ∧
    ((t.getV x).toNat : Int) = ((s.getV x).toNat - (s.getV y).toNat : Int) % 256 ∧
    (x ≠ 15 → t.getV 15 = if (s.getV y).toNat ≤ (s.getV x).toNat then 0x01 else 0x00) ∧
    (∀ r, r ≠ x → r ≠ 15 → t.getV r = s.getV r) ∧ t = { s with v := t.v }

/-- 8xy7 (R83, R85): `VY - VX` modulo 256 in `V[x]`, and VF = 1 exactly when no borrow is needed; `V[y]` is unchanged unless
it is written as `V[x]` or VF. The cases `x` = 15 and `y` = 15 are the spec's decision D7 (log entry 8). -/
def Obligations.ReverseSubtractWritesNoBorrow : Prop :=
  ∀ (x y : Reg) (s : State), ∃ t, exec (.subn x y) s = .next t ∧
    ((t.getV x).toNat : Int) = ((s.getV y).toNat - (s.getV x).toNat : Int) % 256 ∧
    (x ≠ 15 → t.getV 15 = if (s.getV x).toNat ≤ (s.getV y).toNat then 0x01 else 0x00) ∧
    (∀ r, r ≠ x → r ≠ 15 → t.getV r = s.getV r) ∧ t = { s with v := t.v }

/-- 8xy6 (R82, R85): the half rounded down in `V[x]`, the bit shifted out in VF; VY is neither read nor written. With
`x` = 15 the result stays in VF, the spec's decision D7 (log entry 8). -/
def Obligations.ShiftRightWritesTheBitOut : Prop :=
  ∀ (x y : Reg) (s : State), ∃ t, exec (.shr x y) s = .next t ∧
    (t.getV x).toNat = (s.getV x).toNat / 2 ∧
    (x ≠ 15 → (t.getV 15).toNat = (s.getV x).toNat % 2) ∧
    (∀ r, r ≠ x → r ≠ 15 → t.getV r = s.getV r) ∧ t = { s with v := t.v }

/-- 8xyE (R84, R85): the double modulo 256 in `V[x]`, the bit shifted out in VF; VY is neither read nor written. With
`x` = 15 the result stays in VF, the spec's decision D7 (log entry 8). -/
def Obligations.ShiftLeftWritesTheBitOut : Prop :=
  ∀ (x y : Reg) (s : State), ∃ t, exec (.shl x y) s = .next t ∧
    (t.getV x).toNat = 2 * (s.getV x).toNat % 256 ∧
    (x ≠ 15 → (t.getV 15).toNat = (s.getV x).toNat / 128) ∧
    (∀ r, r ≠ x → r ≠ 15 → t.getV r = s.getV r) ∧ t = { s with v := t.v }

/-! ## Index and display -/

/-- Annn (R90): `I` receives `nnn` zero-extended, so its bits 15 to 12 become 0, and nothing else changes. -/
def Obligations.LoadIndexSetsI : Prop :=
  (∀ op : Word, op.toNat / 4096 = 0xA → decodeWord op = .instr (.ldINnn (BitVec.ofNat 12 op.toNat))) ∧
  (∀ (nnn : Addr12) (s : State), ∃ t, exec (.ldINnn nnn) s = .next t ∧ t.i.toNat = nnn.toNat ∧ t = { s with i := t.i })

/-- 00E0 (R91): every pixel becomes 0, and nothing else changes, VF neither. -/
def Obligations.ClearSetsEveryPixelToZero : Prop :=
  decodeWord 0x00E0 = .instr .cls ∧
  (∀ s : State, ∃ t, exec .cls s = .next t ∧ (∀ r c, Display.pixel t.fb r c = false) ∧ t = { s with fb := t.fb })

/-- Dxyn within memory (R92 to R96): every pixel is its old value XOR the sprite bit laid on it, VF is 1 exactly when some
pixel was 1 where its sprite bit is 1, and nothing else changes, for every `x`, `y` (15 included) and `n` (0 included).
That bit 7 is the leftmost is the spec's decision D8 (log entry 9); the bound is its D9 (log entry 10); that VF as a
coordinate is read before it is written agrees with its D7 (log entry 8). -/
def Obligations.DrawXorsTheSpriteOntoTheDisplay : Prop :=
  ∀ (x y : Reg) (n : Nibble) (s : State), s.i.toNat + n.toNat ≤ 4096 → ∃ t,
    exec (.drw x y n) s = .next t ∧
    (∀ r c, Display.pixel t.fb r c = (Display.pixel s.fb r c ^^ Sys2Proof.Claims.spriteOver s x y n r c)) ∧
    ((t.getV 15 = 0x01 ∧
        ∃ r c, Display.pixel s.fb r c = true ∧ Sys2Proof.Claims.spriteOver s x y n r c = true) ∨
      (t.getV 15 = 0x00 ∧
        ¬ ∃ r c, Display.pixel s.fb r c = true ∧ Sys2Proof.Claims.spriteOver s x y n r c = true)) ∧
    (∀ r, r ≠ 15 → t.getV r = s.getV r) ∧ t = { s with v := t.v, fb := t.fb }

/-- Dxyn past the end of memory: OutOfBoundsSprite, code 6 latched and reported, no pixel and no register changed (R36,
R92, R103). The fault is the spec's decision D9, its state D3, code and report D2 and D4 (log entries 10, 5, 4,
18). -/
def Obligations.DrawPastTheEndOfMemoryFaults : Prop :=
  ∀ (x y : Reg) (n : Nibble) (s : State), 4096 < s.i.toNat + n.toNat →
    exec (.drw x y n) s = .next { s with
      fault := 6
      report := some ⟨6, s.pc - 2, BitVec.ofNat 16 (0xD000 + 256 * x.val + 16 * y.val + n.toNat)⟩ }

/-- Drawing the same sprite twice at the same place restores the display (R96's self-inverse property), and the second
draw reports a collision exactly when some sprite bit falls on a pixel that was 0 before the first. The bit order and the
bound are the spec's decisions D8 and D9 (log entries 9, 10). -/
def Obligations.DrawingTwiceRestoresTheDisplay : Prop :=
  ∀ (x y : Reg) (n : Nibble) (s : State), x ≠ 15 → y ≠ 15 → s.i.toNat + n.toNat ≤ 4096 → ∃ t u,
    exec (.drw x y n) s = .next t ∧ exec (.drw x y n) t = .next u ∧ u.fb = s.fb ∧
    (u.getV 15 = 0x01 ↔
      ∃ r c, Display.pixel s.fb r c = false ∧ Sys2Proof.Claims.spriteOver s x y n r c = true)

/-- R96 and the source's S6 as they are written: the second of two equal draws reports a collision whenever the sprite has
a set bit. EXPECTED TO FAIL: by the blit of R95 itself the second draw reports none when every set sprite bit falls on a
pixel that was 1 before the first draw (NOTES.md); `DrawingTwiceRestoresTheDisplay` states what does hold. The bound is the
spec's decision D9 (log entry 10). -/
def Obligations.SecondDrawAlwaysReportsACollision : Prop :=
  ∀ (x y : Reg) (n : Nibble) (s t u : State), x ≠ 15 → y ≠ 15 → s.i.toNat + n.toNat ≤ 4096 →
    (∃ j, j < n.toNat ∧ Memory.read s.mem (s.i.toNat + j) ≠ 0x00) →
    exec (.drw x y n) s = .next t → exec (.drw x y n) t = .next u → u.getV 15 = 0x01

/-! ## What the whole instruction set leaves alone -/

/-- `I` is written by Annn alone and read by Dxyn alone, and no instruction makes it exceed 0xFFF (R13). -/
def Obligations.OnlyAnnnWritesAndOnlyDxynReadsI : Prop :=
  (∀ (i : Instr) (s t : State), exec i s = .next t → (∀ nnn, i ≠ .ldINnn nnn) → t.i = s.i) ∧
  (∀ (nnn : Addr12) (s t : State), exec (.ldINnn nnn) s = .next t → t.i = BitVec.ofNat 16 nnn.toNat) ∧
  (∀ (i : Instr) (s t : State) (w : Word), exec i s = .next t → (∀ nnn, i ≠ .ldINnn nnn) →
    (∀ x y n, i ≠ .drw x y n) → exec i { s with i := w } = .next { t with i := w }) ∧
  (∀ (nnn : Addr12) (s : State) (w : Word), exec (.ldINnn nnn) { s with i := w } = exec (.ldINnn nnn) s) ∧
  (∀ (i : Instr) (s t : State), exec i s = .next t → s.i.toNat ≤ 0x0FFF → t.i.toNat ≤ 0x0FFF)

/-- VF as the flag (R11): what each flag-writing instruction leaves in it when `x` is not 15 (with `x` = 15 the flag is
written and then lost, `AddWritesCarry` and its kin), and that no other instruction writes it as a side effect. That an
operand VF (`y` = 15) is read before the flag is written is the spec's decision D7 (log entry 8), the bound of a draw its D9
(log entry 10). -/
def Obligations.FlagWritersAndNoOthersWriteVf : Prop :=
  (∀ (x y : Reg) (s t : State), x ≠ 15 → exec (.addVxVy x y) s = .next t →
    t.getV 15 = if 255 < (s.getV x).toNat + (s.getV y).toNat then 0x01 else 0x00) ∧
  (∀ (x y : Reg) (s t : State), x ≠ 15 → exec (.sub x y) s = .next t →
    t.getV 15 = if (s.getV y).toNat ≤ (s.getV x).toNat then 0x01 else 0x00) ∧
  (∀ (x y : Reg) (s t : State), x ≠ 15 → exec (.shr x y) s = .next t →
    t.getV 15 = if (s.getV x).getLsbD 0 then 0x01 else 0x00) ∧
  (∀ (x y : Reg) (s t : State), x ≠ 15 → exec (.subn x y) s = .next t →
    t.getV 15 = if (s.getV x).toNat ≤ (s.getV y).toNat then 0x01 else 0x00) ∧
  (∀ (x y : Reg) (s t : State), x ≠ 15 → exec (.shl x y) s = .next t →
    t.getV 15 = if (s.getV x).getLsbD 7 then 0x01 else 0x00) ∧
  (∀ (x y : Reg) (n : Nibble) (s t : State), s.i.toNat + n.toNat ≤ 4096 → exec (.drw x y n) s = .next t →
    (t.getV 15 = 0x01 ∧ ∃ r c, Display.pixel s.fb r c = true ∧ Display.pixel t.fb r c = false) ∨
    (t.getV 15 = 0x00 ∧ ¬ ∃ r c, Display.pixel s.fb r c = true ∧ Display.pixel t.fb r c = false)) ∧
  (∀ (i : Instr) (s t : State), exec i s = .next t → 15 ∉ Sys2Proof.Claims.mayWrite i → t.getV 15 = s.getV 15)

/-- The general registers an instruction writes are those of R10's table; every other register is unchanged. -/
def Obligations.InstructionsWriteOnlyTheirRegisters : Prop :=
  ∀ (i : Instr) (s t : State), exec i s = .next t →
    ∀ r, r ∉ Sys2Proof.Claims.mayWrite i → t.getV r = s.getV r

/-- No instruction writes memory, nor does any transaction but `Load`, which writes the image and the font alone, and
`Reset`, which sets every byte to 0x00 (R39). `Reset` in any state is the spec's decision D20 and a failed `Load` that writes
nothing its D15 (log entries 17, 12). -/
def Obligations.MemoryIsWrittenByLoadAndResetAlone : Prop :=
  (∀ (i : Instr) (s t : State), exec i s = .next t → ∀ a, Memory.read t.mem a = Memory.read s.mem a) ∧
  (∀ (call : HostCall) (s t : State) (ans : Answer), transact call s = .next (ans, t) →
    match call with
    | .reset => ∀ a, Memory.read t.mem a = 0x00
    | .load bytes => ∀ a, (a < 0x200 ∨ 0x200 + bytes.length ≤ a) → (a < 0x050 ∨ 0x0A0 ≤ a) →
        Memory.read t.mem a = Memory.read s.mem a
    | .step _ _ | .readFrameBuffer | .soundGate => ∀ a, Memory.read t.mem a = Memory.read s.mem a)

/-- The display is written by Dxyn, 00E0 and `Reset` alone, and no pixel is read into a register: an instruction other than
these two does the same whatever the display, and Dxyn writes no register but VF (R20). `Reset` in any state is the spec's
decision D20 (log entry 17). -/
def Obligations.DisplayChangesByDrawClearAndResetAlone : Prop :=
  (∀ (i : Instr) (s t : State) (d : Display), exec i s = .next t → i ≠ .cls → (∀ x y n, i ≠ .drw x y n) →
    t.fb = s.fb ∧ exec i { s with fb := d } = .next { t with fb := d }) ∧
  (∀ (x y : Reg) (n : Nibble) (s t : State), exec (.drw x y n) s = .next t → ∀ r, r ≠ 15 → t.getV r = s.getV r) ∧
  (∀ (call : HostCall) (s t : State) (ans : Answer), transact call s = .next (ans, t) →
    (∀ a b, call ≠ .step a b) → call ≠ .reset → t.fb = s.fb) ∧
  (∀ (s : State) (r : Fin 32) (c : Fin 64), Display.pixel (hostReset s).fb r c = false)

/-- The stack is changed by 2nnn and 00EE alone; 2nnn changes one slot at most, 00EE none (R17, R21). That a pop leaves the
slot's bits is the spec's own representation, its D14 (log entry 13), and that a call or a return that faults leaves `SP` and
the slots its D3 (log entry 5). -/
def Obligations.StackChangesByCallAndReturnAlone : Prop :=
  (∀ (i : Instr) (s t : State), exec i s = .next t → i ≠ .ret → (∀ nnn, i ≠ .call nnn) →
    t.sp = s.sp ∧ t.stk = s.stk) ∧
  (∀ (s t : State), exec .ret s = .next t → t.stk = s.stk ∧ t.sp.val = s.sp.val - 1) ∧
  (∀ (nnn : Addr12) (s t : State), exec (.call nnn) s = .next t →
    (∀ (j : Nat) (h : j < 16), j ≠ s.sp.val → t.stk[j] = s.stk[j]) ∧ t.sp.val = min 16 (s.sp.val + 1))

/-- No instruction touches the timers, the draws or `LOADED`, and only a fatal fault touches `FAULT` (R22, R23, R112). The
latch is the spec's decision D2, the absence of timer instructions its D12, the report its D4, the sprite fault its D9 (log
entries 5, 23, 4, 18, 10). -/
def Obligations.InstructionsLeaveTimersAndStatusAlone : Prop :=
  ∀ (i : Instr) (s t : State), exec i s = .next t →
    t.dt = s.dt ∧ t.st = s.st ∧ t.draws = s.draws ∧ t.loaded = s.loaded ∧
    (t.fault = s.fault ∧ t.report = s.report ∨
      ∃ c : FatalCause, c ≠ .outOfBoundsFetch ∧ t.fault = c.code ∧ t.report = some ⟨c.code, s.pc - 2, encode i⟩)

/-- Faults are precise (R103): a step that leaves a running core faulted has made its timer update and, unless the fetch
itself faulted, advanced `PC` by 2, and has changed nothing else but `FAULT` and the report. The state after a fatal fault
is the spec's decision D3 (log entry 5), the fetch bound its D5 (log entry 6). -/
def Obligations.FatalFaultsArePrecise : Prop :=
  ∀ (dueDt dueSt : Bool) (s t : State), s.running = true → runCycle dueDt dueSt s = .next t → t.fault ≠ 0 →
    t = { (State.timerUpdate dueDt dueSt s) with
      pc := if 4094 ≤ s.pc.toNat then s.pc else s.pc + 2, fault := t.fault, report := t.report }

/-- `PC` after a step of a running core: R15's table, for every instruction, an unknown opcode and a fetch fault. Its rows
on faults are the spec's decision D3 (log entry 5), the fetch bound its D5 (log entry 6), the fetch at an odd `PC` and an odd
target its D6 (log entry 7), the unknown words its D17 (log entry 21). -/
def Obligations.PcAfterAStep : Prop :=
  ∀ (dueDt dueSt : Bool) (s t : State), s.running = true → runCycle dueDt dueSt s = .next t →
    (4094 ≤ s.pc.toNat → t.pc = s.pc) ∧
    (∀ why, s.pc.toNat < 4094 → decodeWord (BitVec.ofNat 16 s.wordAtPc) = .unknown why → t.pc = s.pc + 2) ∧
    (∀ i, s.pc.toNat < 4094 → decodeWord (BitVec.ofNat 16 s.wordAtPc) = .instr i →
      t.pc = Sys2Proof.Claims.pcAfter s i)

/-! ## Invariants -/

/-- R25's invariants hold after reset. `PC` after reset is the spec's decision D1 (log entry 1). -/
def Obligations.InvariantsHoldAtReset : Prop := State.reset.Reachable

/-- R25's invariants, with the latch values of R22 and the canonical form of memory, are kept by every step and by every
transaction, from every state that meets them: `I <= 0xFFF`, `PC <= 0x1001`, live return addresses 2 to 0xFFF, both timers
0. The latch is the spec's decision D2 (log entry 5), the fetch bound behind `PC <= 0x1001` its D5 (log entry 6), `PC` after
`Reset` its D1 (log entry 1), `Reset` in any state its D20 (log entry 17), the absence of timer instructions its D12 (log entry
23); the canonical form is the model's own (log entry 14). -/
def Obligations.InvariantsAreKeptByEveryTransaction : Prop :=
  (∀ s t : State, s.Reachable → step s = .next t → t.Reachable) ∧
  (∀ (call : HostCall) (s t : State) (ans : Answer), s.Reachable → transact call s = .next (ans, t) → t.Reachable)

/-- The canonical form of memory is kept by every step and every transaction, from every state that has it. The form is the
model's own (log entry 14). -/
def Obligations.MemoryStaysCanonical : Prop :=
  (∀ s t : State, Memory.wf s.mem = true → step s = .next t → Memory.wf t.mem = true) ∧
  (∀ (call : HostCall) (s t : State) (ans : Answer), Memory.wf s.mem = true → transact call s = .next (ans, t) →
    Memory.wf t.mem = true)

/-- `PC` and every live return address stay even as long as the jumps and calls executed have even targets (R128). That the
hardware does not check it is the spec's decision D6 (log entry 7). -/
def Obligations.PcStaysEvenUnderEvenTargets : Prop :=
  ∀ (dueDt dueSt : Bool) (s t : State), s.EvenPc →
    (∀ nnn : Addr12, decodeWord (BitVec.ofNat 16 s.wordAtPc) = .instr (.jp nnn) ∨
      decodeWord (BitVec.ofNat 16 s.wordAtPc) = .instr (.call nnn) → nnn.toNat % 2 = 0) →
    runCycle dueDt dueSt s = .next t → t.EvenPc

/-- A parked core stays parked for any number of steps, with `V`, `I`, `SP`, `STK`, `FB`, `MEM` and `PC` unchanged and an
OK report after each (R131). PARKED is the spec's own definition, its D23 (log entry 25), the report's form its D4 (log
entry 4), the fetch at an odd `PC` its D6 (log entry 7). -/
def Obligations.ParkedCoreStaysParked : Prop :=
  ∀ (k : Nat) (s : State) (a : Nat), s.running = true → s.parkedAt a = true → ∃ t : State,
    Host.Core.run Sys2Proof.core k s = .next t ∧ t.running = true ∧ t.parkedAt a = true ∧
    t.v = s.v ∧ t.i = s.i ∧ t.sp = s.sp ∧ t.stk = s.stk ∧ t.fb = s.fb ∧ t.mem = s.mem ∧ t.pc = s.pc ∧
    (0 < k → t.report = some ⟨0, s.pc, BitVec.ofNat 16 (0x1000 + a)⟩)

/-- A core whose memory is 0x00 from `PC` on runs through it two bytes a step, and each step is a no-op: `V`, `I`, `SP`,
`STK`, `FB` and `MEM` stay and the report is OK. It does so until `PC` is 4094 (4095 from an odd `PC`), and the next step
faults with OutOfBoundsFetch and leaves all of them and `PC` (R129). The bound is the spec's decision D5, the state a fault
leaves its D3, the fetch at an odd `PC` its D6, the reports its D4, that the word 0x0000 is the no-op its D17 (log entries 6,
5, 7, 4, 21). -/
def Obligations.ZeroMemoryRunsToTheFetchFault : Prop :=
  ∀ s : State, s.running = true → s.pc.toNat ≤ 4095 →
    (∀ a, s.pc.toNat ≤ a → a < 4096 → Memory.read s.mem a = 0x00) →
    (∀ k, 2 * k ≤ 4095 - s.pc.toNat → ∃ t : State, Host.Core.run Sys2Proof.core k s = .next t ∧
      t.pc.toNat = s.pc.toNat + 2 * k ∧ t.fault = 0 ∧ Sys2Proof.Claims.sameButPcTimersStatus s t ∧
      (0 < k → t.report = some ⟨0, t.pc - 2, 0x0000⟩)) ∧
    (∃ t : State, Host.Core.run Sys2Proof.core ((4095 - s.pc.toNat) / 2 + 1) s = .next t ∧
      t.pc.toNat = 4094 + s.pc.toNat % 2 ∧ t.fault = 4 ∧ Sys2Proof.Claims.sameButPcTimersStatus s t ∧
      t.report = some ⟨4, t.pc, 0x0000⟩)

/-! ## What cannot be observed -/

/-- The contents of stack slots at index `SP` and above never matter: two states that differ only there step, on the same
inputs, to states that differ only there (R17). The representation is the spec's decision D14 (log entry 13). -/
def Obligations.StaleStackSlotsAreUnobservable : Prop :=
  ∀ (dueDt dueSt : Bool) (s t : State), Sys2Proof.Claims.sameButStaleSlots s t →
    Sys2Proof.Claims.outcomesAgree Sys2Proof.Claims.sameButStaleSlots (runCycle dueDt dueSt s) (runCycle dueDt dueSt t)

/-- A program cannot observe the timers nor the inputs `due_dt`, `due_st` in any way: two states that differ only in the
timers step, on ANY inputs each, to states that differ only there (R112). That no instruction reads a timer is the spec's
decision D12 (log entry 23), the free inputs its D11 (log entry 2). -/
def Obligations.TimersAndDueInputsAreUnobservable : Prop :=
  ∀ (dueDt dueSt dueDt' dueSt' : Bool) (s t : State), Sys2Proof.Claims.sameButTimers s t →
    Sys2Proof.Claims.outcomesAgree Sys2Proof.Claims.sameButTimers (runCycle dueDt dueSt s) (runCycle dueDt' dueSt' t)

/-! ## Reset, load and the host's ports -/

/-- The state after reset (R24, R120). `PC` = 0x0200 is the spec's decision D1 (log entry 1), `FAULT` its D2 and `LOADED` its
D15; the values of `draws` and `report` are the model's own (log entries 3, 4) and not stated here. -/
def Obligations.ResetStateIsAsTheSpecSays : Prop :=
  (∀ x, State.reset.getV x = 0x00) ∧ State.reset.i = 0x0000 ∧ State.reset.pc = 0x0200 ∧ State.reset.sp = 0 ∧
  (∀ (j : Nat) (h : j < 16), State.reset.stk[j] = 0x0000) ∧ State.reset.dt = 0x00 ∧ State.reset.st = 0x00 ∧
  (∀ r c, Display.pixel State.reset.fb r c = false) ∧ (∀ a, Memory.read State.reset.mem a = 0x00) ∧
  State.reset.fault = 0 ∧ State.reset.loaded = false

/-- `Reset` in any state, halted or not, puts every piece of the spec's state at its reset value (R120). `Reset` as a
repeatable transaction is the spec's decision D20 (log entry 17); the draws going on is the model's choice (log entry 3). -/
def Obligations.ResetTransactionRestoresTheResetState : Prop :=
  ∀ s : State, ∃ t, transact .reset s = .next (.nothing, t) ∧ t = { State.reset with draws := s.draws }

/-- `Load` (R122, R124): refused on a loaded core; LoadError with nothing written when the image is longer than 0xE00; else
the image at 0x200, the font at 0x050, `LOADED` = 1, and no other byte or piece of state changed. The failed load's state,
the refusal and `LOADED` are the spec's decision D15 (log entry 12); font glyphs 1 to F, `Config.font` past its fifth byte,
are its D10 (log entry 11). -/
def Obligations.LoadWritesTheImageAndTheFont : Prop :=
  ∀ (bytes : List Byte) (s : State), Memory.wf s.mem = true →
    (s.loaded = true → load bytes s = .refused .loadWhenLoaded) ∧
    (s.loaded = false → 0xE00 < bytes.length → load bytes s = .next (.loadError, s)) ∧
    (s.loaded = false → bytes.length ≤ 0xE00 → ∃ t, load bytes s = .next (.ok, t) ∧
      (∀ (j : Nat) (h : j < bytes.length), Memory.read t.mem (0x200 + j) = bytes[j]) ∧
      (∀ (j : Nat) (h : j < Config.font.length), Memory.read t.mem (0x050 + j) = Config.font[j]) ∧
      (∀ a, (a < 0x200 ∨ 0x200 + bytes.length ≤ a) → (a < 0x050 ∨ 0x0A0 ≤ a) →
        Memory.read t.mem a = Memory.read s.mem a) ∧
      t = { s with mem := t.mem, loaded := true })

/-- The launch state, after `Reset` and one successful `Load` (R31, R124): the image at 0x200, the font at 0x050 with glyph 0
as the source gives it, 0x00 everywhere else, `LOADED` = 1, R25's invariants, and every other piece of state as `Reset`
leaves it. The lifecycle is the spec's D15, `PC` its D1 (log entries 12, 1). -/
def Obligations.LaunchStateIsAsTheSpecSays : Prop :=
  ∀ (bytes : List Byte) (s : State), bytes.length ≤ 0xE00 → ∃ t,
    transact (.load bytes) (hostReset s) = .next (.load .ok, t) ∧ t.Reachable ∧ t.running = true ∧
    (∀ (j : Nat) (h : j < bytes.length), Memory.read t.mem (0x200 + j) = bytes[j]) ∧
    Memory.read t.mem 0x050 = 0xF0 ∧ Memory.read t.mem 0x051 = 0x90 ∧ Memory.read t.mem 0x052 = 0x90 ∧
    Memory.read t.mem 0x053 = 0x90 ∧ Memory.read t.mem 0x054 = 0xF0 ∧
    (∀ a, a < 0x050 ∨ (0x0A0 ≤ a ∧ a < 0x200) ∨ 0x200 + bytes.length ≤ a → Memory.read t.mem a = 0x00) ∧
    t = { hostReset s with mem := t.mem, loaded := true }

/-- `ReadFrameBuffer` answers the whole grid and `sound_gate` answers 1 exactly while `ST` is not 0, in every state, halted
ones included, and neither changes anything (R98, R113). The export's form is the spec's decision D21, the gate its D13
(log entries 22, 23). -/
def Obligations.ReadPortsAnswerAndChangeNothing : Prop :=
  ∀ s : State, transact .readFrameBuffer s = .next (.frameBuffer s.fb, s) ∧
    (∀ r c, readFrameBuffer s r c = Display.pixel s.fb r c) ∧
    transact .soundGate s = .next (.level (decide (0 < s.st.toNat)), s)
end

