-- ==== Sys2Proof/Laws/Decode.lean ====
section
/-!
SUPPORT. The fields of the words the encoder lays out (spec/30_encoding.md R45, R46), and a word rebuilt from its fields.
-/

namespace Sys2Proof

@[simp] theorem opFamily_wordNnn (f : Nibble) (nnn : Addr12) : opFamily (wordNnn f nnn) = f := by
  apply BitVec.eq_of_getElem_eq
  intro i hi
  simp only [opFamily, wordNnn, BitVec.getElem_extractLsb', BitVec.getLsbD_append]
  simp [show ¬ 12 + i < 12 by omega, hi]

@[simp] theorem opNnn_wordNnn (f : Nibble) (nnn : Addr12) : opNnn (wordNnn f nnn) = nnn := by
  apply BitVec.eq_of_getElem_eq
  intro i hi
  simp only [opNnn, wordNnn, BitVec.getElem_extractLsb', BitVec.getLsbD_append]
  simp [hi]

@[simp] theorem opFamily_wordXkk (f : Nibble) (x : Reg) (kk : Byte) : opFamily (wordXkk f x kk) = f := by
  apply BitVec.eq_of_getElem_eq
  intro i hi
  simp only [opFamily, wordXkk, BitVec.getElem_extractLsb', BitVec.getLsbD_append]
  simp [show ¬ 12 + i < 8 by omega, show ¬ 12 + i - 8 < 4 by omega, show 12 + i - 8 - 4 = i by omega, hi]

@[simp] theorem opX_wordXkk (f : Nibble) (x : Reg) (kk : Byte) : opX (wordXkk f x kk) = x := by
  suffices h : (wordXkk f x kk).extractLsb' 8 4 = regBits x by simp [opX, h, regBits]
  apply BitVec.eq_of_getElem_eq
  intro i hi
  simp only [wordXkk, BitVec.getElem_extractLsb', BitVec.getLsbD_append]
  simp [hi]

@[simp] theorem opKk_wordXkk (f : Nibble) (x : Reg) (kk : Byte) : opKk (wordXkk f x kk) = kk := by
  apply BitVec.eq_of_getElem_eq
  intro i hi
  simp only [opKk, wordXkk, BitVec.getElem_extractLsb', BitVec.getLsbD_append]
  simp [hi]

@[simp] theorem opFamily_wordXyn (f : Nibble) (x y : Reg) (n : Nibble) : opFamily (wordXyn f x y n) = f := by
  apply BitVec.eq_of_getElem_eq
  intro i hi
  simp only [opFamily, wordXyn, BitVec.getElem_extractLsb', BitVec.getLsbD_append]
  simp [show ¬ 12 + i < 4 by omega, show ¬ 12 + i - 4 < 4 by omega, show ¬ 12 + i - 4 - 4 < 4 by omega,
    show 12 + i - 4 - 4 - 4 = i by omega, hi]

@[simp] theorem opX_wordXyn (f : Nibble) (x y : Reg) (n : Nibble) : opX (wordXyn f x y n) = x := by
  suffices h : (wordXyn f x y n).extractLsb' 8 4 = regBits x by simp [opX, h, regBits]
  apply BitVec.eq_of_getElem_eq
  intro i hi
  simp only [wordXyn, BitVec.getElem_extractLsb', BitVec.getLsbD_append]
  simp [show ¬ 8 + i < 4 by omega, show ¬ 8 + i - 4 < 4 by omega, show 8 + i - 4 - 4 = i by omega, hi]

@[simp] theorem opY_wordXyn (f : Nibble) (x y : Reg) (n : Nibble) : opY (wordXyn f x y n) = y := by
  suffices h : (wordXyn f x y n).extractLsb' 4 4 = regBits y by simp [opY, h, regBits]
  apply BitVec.eq_of_getElem_eq
  intro i hi
  simp only [wordXyn, BitVec.getElem_extractLsb', BitVec.getLsbD_append]
  simp [hi]

@[simp] theorem opN_wordXyn (f : Nibble) (x y : Reg) (n : Nibble) : opN (wordXyn f x y n) = n := by
  apply BitVec.eq_of_getElem_eq
  intro i hi
  simp only [opN, wordXyn, BitVec.getElem_extractLsb', BitVec.getLsbD_append]
  simp [hi]

/-- The bits of a word, as the decoder's and the table's masks see them: a word is its four nibbles. -/
theorem word_eq_wordXyn (op : Word) : op = wordXyn (opFamily op) (opX op) (opY op) (opN op) := by
  apply BitVec.eq_of_getLsbD_eq
  intro i hi
  simp only [wordXyn, opFamily, opX, opY, opN, regBits, BitVec.getLsbD_append, BitVec.ofFin_toFin,
    BitVec.getLsbD_extractLsb']
  split_ifs with h1 h2 h3
  · simp [h1]
  · simp [h2, show 4 + (i - 4) = i by omega]
  · simp [h3, show 8 + (i - 4 - 4) = i by omega]
  · simp [show i - 4 - 4 - 4 < 4 by omega, show 12 + (i - 4 - 4 - 4) = i by omega]

/-- A word laid out as two bytes and read back (R32). -/
@[simp] theorem wordOfBytes_high_low (w : Word) : wordOfBytes (highByte w) (lowByte w) = w := by
  apply BitVec.eq_of_getLsbD_eq
  intro i hi
  simp only [wordOfBytes, highByte, lowByte, BitVec.getLsbD_append, BitVec.getLsbD_extractLsb']
  split_ifs with h1
  · simp [h1]
  · simp [show i - 8 < 8 by omega, show 8 + (i - 8) = i by omega]

/-- The byte decoder reads the word decoder's answer for the two bytes of a word. -/
theorem decodeBytes_of_word (w : Word) (rest : List Byte) :
    decodeBytes (highByte w :: lowByte w :: rest) = (decodeWord w, rest) := by
  simp [decodeBytes]

/-- A word as a natural number, from its two bytes (R32). -/
theorem wordOfBytes_toNat (hi lo : Byte) : (wordOfBytes hi lo).toNat = 256 * hi.toNat + lo.toNat := by
  rw [wordOfBytes, BitVec.toNat_append, Nat.shiftLeft_eq, ← Nat.shiftLeft_eq, ← Nat.shiftLeft_add_eq_or_of_lt lo.isLt,
    Nat.shiftLeft_eq]
  omega

/-! ## Fields and words as natural numbers (R46, R53) -/

theorem opFamily_toNat (op : Word) : (opFamily op).toNat = op.toNat / 4096 := by
  have := op.isLt
  simp only [opFamily, BitVec.extractLsb'_toNat, Nat.shiftRight_eq_div_pow]
  omega

theorem opX_val (op : Word) : (opX op).val = op.toNat / 256 % 16 := by
  show (op.extractLsb' 8 4).toNat = _
  simp only [BitVec.extractLsb'_toNat, Nat.shiftRight_eq_div_pow]

theorem opY_val (op : Word) : (opY op).val = op.toNat / 16 % 16 := by
  show (op.extractLsb' 4 4).toNat = _
  simp only [BitVec.extractLsb'_toNat, Nat.shiftRight_eq_div_pow]

theorem opN_toNat (op : Word) : (opN op).toNat = op.toNat % 16 := by
  simp [opN, BitVec.extractLsb'_toNat]

theorem opKk_toNat (op : Word) : (opKk op).toNat = op.toNat % 256 := by
  simp [opKk, BitVec.extractLsb'_toNat]

theorem opNnn_toNat (op : Word) : (opNnn op).toNat = op.toNat % 4096 := by
  simp [opNnn, BitVec.extractLsb'_toNat]

theorem wordNnn_toNat (f : Nibble) (nnn : Addr12) : (wordNnn f nnn).toNat = 4096 * f.toNat + nnn.toNat := by
  rw [wordNnn, BitVec.toNat_append, ← Nat.shiftLeft_add_eq_or_of_lt nnn.isLt, Nat.shiftLeft_eq]
  omega

theorem wordXkk_toNat (f : Nibble) (x : Reg) (kk : Byte) :
    (wordXkk f x kk).toNat = 4096 * f.toNat + 256 * x.val + kk.toNat := by
  rw [wordXkk, BitVec.toNat_append, ← Nat.shiftLeft_add_eq_or_of_lt kk.isLt, Nat.shiftLeft_eq, BitVec.toNat_append,
    ← Nat.shiftLeft_add_eq_or_of_lt (regBits x).isLt, Nat.shiftLeft_eq]
  show (f.toNat * 2 ^ 4 + x.val) * 2 ^ 8 + _ = _
  omega

theorem wordXyn_toNat (f : Nibble) (x y : Reg) (n : Nibble) :
    (wordXyn f x y n).toNat = 4096 * f.toNat + 256 * x.val + 16 * y.val + n.toNat := by
  rw [wordXyn, BitVec.toNat_append, ← Nat.shiftLeft_add_eq_or_of_lt n.isLt, Nat.shiftLeft_eq, BitVec.toNat_append,
    ← Nat.shiftLeft_add_eq_or_of_lt (regBits y).isLt, Nat.shiftLeft_eq, BitVec.toNat_append,
    ← Nat.shiftLeft_add_eq_or_of_lt (regBits x).isLt, Nat.shiftLeft_eq]
  show ((f.toNat * 2 ^ 4 + x.val) * 2 ^ 4 + y.val) * 2 ^ 4 + _ = _
  omega

/-! ## The decoder by family (R48) -/

/-- A word of a family other than 0 is neither of the two fixed words. -/
theorem ne_fixed_of_family {op : Word} (h : opFamily op ≠ 0x0#4) : op ≠ 0x00E0#16 ∧ op ≠ 0x00EE#16 :=
  ⟨fun e => h (by rw [e]; decide), fun e => h (by rw [e]; decide)⟩

/-- The lines of R48 below the two fixed words. -/
def decodeByFamily (op : Word) : Decoded :=
  match (opFamily op).toNat with
  | 0x0 => .instr (.sys (opNnn op))
  | 0x1 => .instr (.jp (opNnn op))
  | 0x2 => .instr (.call (opNnn op))
  | 0x3 => .instr (.seVxKk (opX op) (opKk op))
  | 0x4 => .instr (.sneVxKk (opX op) (opKk op))
  | 0x5 => if opN op = 0x0#4 then .instr (.seVxVy (opX op) (opY op)) else .unknown .word5xyN
  | 0x6 => .instr (.ldVxKk (opX op) (opKk op))
  | 0x7 => .instr (.addVxKk (opX op) (opKk op))
  | 0x8 => decodeAlu op
  | 0x9 => .unknown .word9xxx
  | 0xA => .instr (.ldINnn (opNnn op))
  | 0xB => .unknown .wordBxxx
  | 0xC => .unknown .wordCxxx
  | 0xD => .instr (.drw (opX op) (opY op) (opN op))
  | 0xE => .unknown .wordExxx
  | _ => .unknown .wordFxxx

/-- Everything the decoder can do: one of the two fixed words, or the line of the word's family. -/
theorem decodeWord_cases (op : Word) :
    (op = 0x00E0#16 ∧ decodeWord op = .instr .cls) ∨
    (op = 0x00EE#16 ∧ decodeWord op = .instr .ret) ∨
    (op ≠ 0x00E0#16 ∧ op ≠ 0x00EE#16 ∧ decodeWord op = decodeByFamily op) := by
  by_cases h1 : op = 0x00E0#16
  · exact .inl ⟨h1, if_pos h1⟩
  · by_cases h2 : op = 0x00EE#16
    · exact .inr (.inl ⟨h2, by rw [decodeWord, if_neg h1, if_pos h2]⟩)
    · exact .inr (.inr ⟨h1, h2, by rw [decodeWord, if_neg h1, if_neg h2]; rfl⟩)

/-- The line of the word's family, for a word of a family other than 0. -/
theorem decodeWord_of_family {op : Word} (h : opFamily op ≠ 0x0#4) : decodeWord op = decodeByFamily op := by
  obtain ⟨h1, h2⟩ := ne_fixed_of_family h
  rw [decodeWord, if_neg h1, if_neg h2]
  rfl

end Sys2Proof
end

