-- ==== Sys2Proof/Laws/Display.lean ====
section
/-!
SUPPORT. The laws of the display (spec/10_state.md R20): a pixel read after a write, the clear display, and what a blit
does to every pixel and to its collision flag (spec/43_index_display.md R93 to R96).
-/

namespace Sys2Proof.Machine

/-- A pixel read after a write, in one equation. -/
theorem Display.pixel_setPixel (d : Display) (r r' : Fin 32) (c c' : Fin 64) (b : Bool) :
    Display.pixel (Display.setPixel d r c b) r' c' = if r' = r ∧ c' = c then b else Display.pixel d r' c' := by
  simp only [Display.pixel, Display.setPixel]
  by_cases hr : r' = r
  · subst hr
    by_cases hc : c' = c
    · subst hc; simp
    · have : c.val ≠ c'.val := fun e => hc (Fin.ext e.symm)
      simp [hc, Vector.getElem_set_ne, this]
  · have : r.val ≠ r'.val := fun e => hr (Fin.ext e.symm)
    simp [hr, Vector.getElem_set_ne, this]

@[simp] theorem Display.pixel_clear (r : Fin 32) (c : Fin 64) : Display.pixel Display.clear r c = false := by
  simp [Display.pixel, Display.clear]

/-- Two displays with the same pixels are the same. -/
theorem Display.ext_pixel {d e : Display} (h : ∀ r c, Display.pixel d r c = Display.pixel e r c) : d = e := by
  apply Vector.ext
  intro r hr
  apply Vector.ext
  intro c hc
  exact h ⟨r, hr⟩ ⟨c, hc⟩

/-- The sprite seen from a pixel of the display: the sprite bit that a blit of `rows` at origin (`x0`, `y0`) lays on row `r`,
column `c`, false where the sprite does not reach. With the per-pixel wrap of R93 the row offset is `r - y0` modulo 32, the
column offset `c - x0` modulo 64, and the bit at column offset `k` of a byte is its bit `7 - k` (R94). -/
def spritePixelAt (x0 y0 : Nat) (rows : List Byte) (r : Fin 32) (c : Fin 64) : Bool :=
  match rows[(r.val + 32 - y0 % 32) % 32]? with
  | none => false
  | some b => decide ((c.val + 64 - x0 % 64) % 64 < 8) && b.getLsbD (7 - (c.val + 64 - x0 % 64) % 64)

/-- The display after one pixel of the blit. -/
theorem pixel_blitPixel (x0 y : Nat) (b : Byte) (acc : BlitState) (k : Nat) (r : Fin 32) (c : Fin 64) :
    Display.pixel (blitPixel x0 y b acc k).fb r c =
      (Display.pixel acc.fb r c ^^ (decide (r = wrapRow y ∧ c = wrapColumn (x0 + k)) && spriteBit b k)) := by
  simp only [blitPixel, Display.pixel_setPixel]
  by_cases h : r = wrapRow y ∧ c = wrapColumn (x0 + k)
  · obtain ⟨rfl, rfl⟩ := h; simp
  · simp [h]

/-- Eight consecutive columns wrap to eight different ones (R96). -/
theorem wrapColumn_inj {x0 j k : Nat} (hj : j < 8) (hk : k < 8) (h : wrapColumn (x0 + j) = wrapColumn (x0 + k)) : j = k := by
  have : (x0 + j) % 64 = (x0 + k) % 64 := congrArg Fin.val h
  omega

/-- Thirty-two consecutive rows wrap to different ones (R96). -/
theorem wrapRow_inj {y j k : Nat} (hj : j < 32) (hk : k < 32) (h : wrapRow (y + j) = wrapRow (y + k)) : j = k := by
  have : (y + j) % 32 = (y + k) % 32 := congrArg Fin.val h
  omega

/-- The display after some pixels of one sprite byte: each touched column is flipped by its own bit. -/
theorem pixel_foldl_blitPixel (x0 y : Nat) (b : Byte) (ks : List Nat) (hks : ks.Nodup) (h8 : ∀ k ∈ ks, k < 8)
    (acc : BlitState) (r : Fin 32) (c : Fin 64) :
    Display.pixel (ks.foldl (blitPixel x0 y b) acc).fb r c =
      (Display.pixel acc.fb r c ^^
        (decide (r = wrapRow y) && ks.any (fun k => decide (c = wrapColumn (x0 + k)) && spriteBit b k))) := by
  induction ks generalizing acc with
  | nil => simp
  | cons k ks ih =>
    obtain ⟨hnot, hks⟩ := List.nodup_cons.mp hks
    rw [List.foldl_cons, ih hks (fun j hj => h8 j (List.mem_cons_of_mem k hj)), pixel_blitPixel, List.any_cons,
      Bool.decide_and]
    by_cases hc : c = wrapColumn (x0 + k)
    · have hrest : ks.any (fun j => decide (c = wrapColumn (x0 + j)) && spriteBit b j) = false := by
        rw [List.any_eq_false]
        intro j hj hcj
        simp only [Bool.and_eq_true, decide_eq_true_eq] at hcj
        have := wrapColumn_inj (h8 k (by simp)) (h8 j (List.mem_cons_of_mem k hj)) (hc.symm.trans hcj.1)
        exact hnot (this ▸ hj)
      rw [hrest]
      simp [hc]
    · simp [hc]

/-- The collision flag after some pixels of one sprite byte. -/
theorem coll_foldl_blitPixel (x0 y : Nat) (b : Byte) (ks : List Nat) (hks : ks.Nodup) (h8 : ∀ k ∈ ks, k < 8)
    (acc : BlitState) :
    (ks.foldl (blitPixel x0 y b) acc).coll = true ↔
      acc.coll = true ∨
        ∃ k ∈ ks, Display.pixel acc.fb (wrapRow y) (wrapColumn (x0 + k)) = true ∧ spriteBit b k = true := by
  induction ks generalizing acc with
  | nil => simp
  | cons k ks ih =>
    obtain ⟨hnot, hks⟩ := List.nodup_cons.mp hks
    rw [List.foldl_cons, ih hks (fun j hj => h8 j (List.mem_cons_of_mem k hj))]
    have hsame : ∀ j ∈ ks, Display.pixel (blitPixel x0 y b acc k).fb (wrapRow y) (wrapColumn (x0 + j)) =
        Display.pixel acc.fb (wrapRow y) (wrapColumn (x0 + j)) := by
      intro j hj
      have hne : wrapColumn (x0 + j) ≠ wrapColumn (x0 + k) := fun e =>
        hnot (wrapColumn_inj (h8 j (List.mem_cons_of_mem k hj)) (h8 k (by simp)) e ▸ hj)
      simp [pixel_blitPixel, hne]
    constructor
    · rintro (h | ⟨j, hj, hp, hb⟩)
      · simp only [blitPixel, Bool.or_eq_true, Bool.and_eq_true] at h
        rcases h with h | ⟨h1, h2⟩
        · exact .inl h
        · exact .inr ⟨k, by simp, h1, h2⟩
      · exact .inr ⟨j, List.mem_cons_of_mem k hj, by rw [← hsame j hj]; exact hp, hb⟩
    · rintro (h | ⟨j, hj, hp, hb⟩)
      · exact .inl (by simp [blitPixel, h])
      · rcases List.mem_cons.mp hj with rfl | hj
        · exact .inl (by simp [blitPixel, hp, hb])
        · exact .inr ⟨j, hj, by rw [hsame j hj]; exact hp, hb⟩

/-- The display after one sprite byte. -/
theorem pixel_blitByte (x0 y : Nat) (b : Byte) (acc : BlitState) (r : Fin 32) (c : Fin 64) :
    Display.pixel (blitByte x0 y b acc).fb r c =
      (Display.pixel acc.fb r c ^^ (decide (r = wrapRow y) &&
        (decide ((c.val + 64 - x0 % 64) % 64 < 8) && b.getLsbD (7 - (c.val + 64 - x0 % 64) % 64)))) := by
  rw [blitByte, pixel_foldl_blitPixel x0 y b _ (by decide) (by decide)]
  congr 2
  have hcol : ∀ k, k < 8 → (c = wrapColumn (x0 + k) ↔ (c.val + 64 - x0 % 64) % 64 = k) := by
    intro k hk
    have hc := c.isLt
    rw [Fin.ext_iff]
    show c.val = (x0 + k) % 64 ↔ _
    omega
  generalize (c.val + 64 - x0 % 64) % 64 = e at hcol
  simp only [List.any_cons, List.any_nil, hcol _ (by decide : (0 : Nat) < 8), hcol _ (by decide : 1 < 8),
    hcol _ (by decide : 2 < 8), hcol _ (by decide : 3 < 8), hcol _ (by decide : 4 < 8), hcol _ (by decide : 5 < 8),
    hcol _ (by decide : 6 < 8), hcol _ (by decide : 7 < 8), spriteBit]
  by_cases he : e < 8
  · interval_cases e <;> simp
  · have : ∀ k, k < 8 → e ≠ k := fun k hk => by omega
    simp [he, this]

/-- The collision flag after one sprite byte. -/
theorem coll_blitByte (x0 y : Nat) (b : Byte) (acc : BlitState) :
    (blitByte x0 y b acc).coll = true ↔
      acc.coll = true ∨
        ∃ k, k < 8 ∧ Display.pixel acc.fb (wrapRow y) (wrapColumn (x0 + k)) = true ∧ spriteBit b k = true := by
  rw [blitByte, coll_foldl_blitPixel x0 y b _ (by decide) (by decide)]
  have hmem : ∀ k : Nat, k ∈ [0, 1, 2, 3, 4, 5, 6, 7] ↔ k < 8 := by
    intro k
    simp only [List.mem_cons, List.not_mem_nil, or_false]
    omega
  simp only [hmem]

/-- The display after the rows of a sprite, from row `y` on. -/
theorem pixel_blitRows (x0 y : Nat) (bs : List Byte) (hlen : bs.length ≤ 32) (acc : BlitState) (r : Fin 32) (c : Fin 64) :
    Display.pixel (blitRows x0 y bs acc).fb r c = (Display.pixel acc.fb r c ^^ spritePixelAt x0 y bs r c) := by
  induction bs generalizing y acc with
  | nil => simp [blitRows, spritePixelAt]
  | cons b bs ih =>
    simp only [List.length_cons] at hlen
    rw [blitRows, ih (y + 1) (by omega), pixel_blitByte, Bool.xor_assoc]
    congr 1
    have hr := r.isLt
    simp only [spritePixelAt]
    by_cases h0 : (r.val + 32 - y % 32) % 32 = 0
    · have hrow : r = wrapRow y := by
        rw [Fin.ext_iff]; show r.val = y % 32; omega
      have h31 : bs[(r.val + 32 - (y + 1) % 32) % 32]? = none := by
        rw [List.getElem?_eq_none]; omega
      rw [h31, h0]
      simp [hrow]
    · have hrow : r ≠ wrapRow y := by
        intro e
        have : r.val = y % 32 := congrArg Fin.val e
        omega
      rw [show (r.val + 32 - y % 32) % 32 = (r.val + 32 - (y + 1) % 32) % 32 + 1 by omega]
      simp [hrow]

/-- The collision flag after the rows of a sprite, from row `y` on. -/
theorem coll_blitRows (x0 y : Nat) (bs : List Byte) (hlen : bs.length ≤ 32) (acc : BlitState) :
    (blitRows x0 y bs acc).coll = true ↔
      acc.coll = true ∨ ∃ (j : Nat) (hj : j < bs.length) (k : Nat), k < 8 ∧
        Display.pixel acc.fb (wrapRow (y + j)) (wrapColumn (x0 + k)) = true ∧ spriteBit bs[j] k = true := by
  induction bs generalizing y acc with
  | nil => simp [blitRows]
  | cons b bs ih =>
    simp only [List.length_cons] at hlen
    rw [blitRows, ih (y + 1) (by omega), coll_blitByte]
    have hsame : ∀ j, j < bs.length → ∀ c, Display.pixel (blitByte x0 y b acc).fb (wrapRow (y + 1 + j)) c =
        Display.pixel acc.fb (wrapRow (y + 1 + j)) c := by
      intro j hj c
      have hne : wrapRow (y + 1 + j) ≠ wrapRow y := by
        intro e
        have := wrapRow_inj (y := y) (j := 1 + j) (k := 0) (by omega) (by omega) (by simpa [Nat.add_assoc] using e)
        omega
      simp [pixel_blitByte, hne]
    constructor
    · rintro ((h | ⟨k, hk, hp, hb⟩) | ⟨j, hj, k, hk, hp, hb⟩)
      · exact .inl h
      · exact .inr ⟨0, by simp, k, hk, by simpa using hp, by simpa using hb⟩
      · rw [hsame j hj] at hp
        exact .inr ⟨j + 1, by simpa using hj, k, hk, by rw [show y + (j + 1) = y + 1 + j by omega]; exact hp,
          by simpa using hb⟩
    · rintro (h | ⟨j, hj, k, hk, hp, hb⟩)
      · exact .inl (.inl h)
      · cases j with
        | zero => exact .inl (.inr ⟨k, hk, by simpa using hp, by simpa using hb⟩)
        | succ j =>
          simp only [List.length_cons] at hj
          refine .inr ⟨j, by omega, k, hk, ?_, by simpa using hb⟩
          rw [hsame j (by omega), show y + 1 + j = y + (j + 1) by omega]
          exact hp

/-- What a blit does to the display: every pixel is flipped by the sprite bit laid on it (R93 to R96). -/
theorem pixel_blit (x0 y0 : Nat) (rows : List Byte) (hlen : rows.length ≤ 32) (d : Display) (r : Fin 32) (c : Fin 64) :
    Display.pixel (blit x0 y0 rows d).fb r c = (Display.pixel d r c ^^ spritePixelAt x0 y0 rows r c) :=
  pixel_blitRows x0 y0 rows hlen ⟨d, false⟩ r c

/-- What a blit answers: whether some pixel was 1 where the sprite bit laid on it is 1 (R95, R96). -/
theorem coll_blit (x0 y0 : Nat) (rows : List Byte) (hlen : rows.length ≤ 32) (d : Display) :
    (blit x0 y0 rows d).coll = true ↔
      ∃ r c, Display.pixel d r c = true ∧ spritePixelAt x0 y0 rows r c = true := by
  rw [blit, coll_blitRows x0 y0 rows hlen]
  constructor
  · rintro (h | ⟨j, hj, k, hk, hp, hb⟩)
    · simp at h
    · refine ⟨wrapRow (y0 + j), wrapColumn (x0 + k), hp, ?_⟩
      have hr : ((wrapRow (y0 + j)).val + 32 - y0 % 32) % 32 = j := by
        show ((y0 + j) % 32 + 32 - y0 % 32) % 32 = j
        omega
      have hc : ((wrapColumn (x0 + k)).val + 64 - x0 % 64) % 64 = k := by
        show ((x0 + k) % 64 + 64 - x0 % 64) % 64 = k
        omega
      simp only [spritePixelAt, hr, hc, List.getElem?_eq_getElem hj, hk, decide_true, Bool.true_and]
      exact hb
  · rintro ⟨r, c, hp, hs⟩
    have hr := r.isLt
    have hc := c.isLt
    refine .inr ⟨(r.val + 32 - y0 % 32) % 32, ?_, (c.val + 64 - x0 % 64) % 64, ?_, ?_, ?_⟩
    · by_contra h
      rw [spritePixelAt, List.getElem?_eq_none (by omega)] at hs
      simp at hs
    · by_contra h
      simp only [spritePixelAt, h] at hs
      split at hs <;> simp at hs
    · have e1 : wrapRow (y0 + (r.val + 32 - y0 % 32) % 32) = r := by
        rw [Fin.ext_iff]; show (y0 + (r.val + 32 - y0 % 32) % 32) % 32 = r.val; omega
      have e2 : wrapColumn (x0 + (c.val + 64 - x0 % 64) % 64) = c := by
        rw [Fin.ext_iff]; show (x0 + (c.val + 64 - x0 % 64) % 64) % 64 = c.val; omega
      rw [e1, e2]
      exact hp
    · have hlt : (r.val + 32 - y0 % 32) % 32 < rows.length := by
        by_contra h
        rw [spritePixelAt, List.getElem?_eq_none (by omega)] at hs
        simp at hs
      simp only [spritePixelAt, List.getElem?_eq_getElem hlt, Bool.and_eq_true] at hs
      exact hs.2

end Sys2Proof.Machine
end

