-- ==== Sys2Proof/Laws/Memory.lean ====
section
/-!
SUPPORT. The laws of memory: a byte reads back as written, a write leaves every other byte alone, and every memory
operation keeps the canonical form `Memory.wf`.
-/

namespace Sys2Proof.Machine

@[simp] theorem Memory.read_nil (a : Nat) : Memory.read [] a = 0x00#8 := rfl

/-- The canonical form of a memory with a first entry, as propositions. -/
theorem Memory.wfFrom_cons {lo k : Nat} {b : Byte} {m : Memory} :
    Memory.wfFrom lo ((k, b) :: m) = true ↔ lo ≤ k ∧ k < 4096 ∧ b ≠ 0x00#8 ∧ Memory.wfFrom (k + 1) m = true := by
  rw [Memory.wfFrom, Bool.and_eq_true, Bool.and_eq_true, Bool.and_eq_true, decide_eq_true_eq, decide_eq_true_eq,
    bne_iff_ne, and_assoc, and_assoc]
  rfl

@[simp] theorem Memory.unlisted_eq : Memory.unlisted = 0x00#8 := rfl

/-- A write leaves every other byte alone. -/
theorem Memory.read_write_other (m : Memory) {a a' : Nat} (v : Byte) (h : a' ≠ a) :
    Memory.read (Memory.write m a v) a' = Memory.read m a' := by
  induction m with
  | nil =>
    by_cases hv : v = 0x00#8 <;> simp [Memory.write, Memory.read, hv, Ne.symm h]
  | cons kb m ih =>
    obtain ⟨k, b⟩ := kb
    simp only [Memory.write]
    split
    · simp [Memory.read, ih]
    · split
      · next hk => subst hk; split <;> simp [Memory.read, Ne.symm h]
      · split <;> simp [Memory.read, Ne.symm h]

/-- Below its first listed address a canonical memory reads 0x00. -/
theorem Memory.read_below {lo : Nat} {m : Memory} (hm : Memory.wfFrom lo m = true) {a : Nat} (h : a < lo) :
    Memory.read m a = 0x00#8 := by
  induction m generalizing lo with
  | nil => rfl
  | cons kb m ih =>
    obtain ⟨k, b⟩ := kb
    obtain ⟨hk, -, -, hm⟩ := Memory.wfFrom_cons.mp hm
    have : k ≠ a := by omega
    simp [Memory.read, this, ih hm (by omega)]

/-- A byte reads back as written. -/
theorem Memory.read_write_same_from {lo : Nat} {m : Memory} (hm : Memory.wfFrom lo m = true) (a : Nat) (v : Byte) :
    Memory.read (Memory.write m a v) a = v := by
  induction m generalizing lo with
  | nil => by_cases hv : v = 0x00#8 <;> simp [Memory.write, Memory.read, hv]
  | cons kb m ih =>
    obtain ⟨k, b⟩ := kb
    obtain ⟨hk, -, -, hm⟩ := Memory.wfFrom_cons.mp hm
    simp only [Memory.write]
    split
    · have : k ≠ a := by omega
      simp [Memory.read, this, ih hm]
    · split
      · next hka =>
        split
        · next hv => rw [Memory.read_below hm (by omega), hv]; rfl
        · simp [Memory.read]
      · split
        · next hv =>
          have : k ≠ a := by omega
          simp only [Memory.read, this, if_false]
          rw [Memory.read_below hm (by omega), hv]; rfl
        · simp [Memory.read]

/-- A byte reads back as written. -/
theorem Memory.read_write_same {m : Memory} (hm : Memory.wf m = true) (a : Nat) (v : Byte) :
    Memory.read (Memory.write m a v) a = v := Memory.read_write_same_from hm a v

/-- A canonical memory lists nothing at or above 4096. -/
theorem Memory.read_above_from {lo : Nat} {m : Memory} (hm : Memory.wfFrom lo m = true) {a : Nat} (h : 4096 ≤ a) :
    Memory.read m a = 0x00#8 := by
  induction m generalizing lo with
  | nil => rfl
  | cons kb m ih =>
    obtain ⟨k, b⟩ := kb
    obtain ⟨-, hk, -, hm⟩ := Memory.wfFrom_cons.mp hm
    have : k ≠ a := by omega
    simp [Memory.read, this, ih hm]

/-- The canonical form from a lower address on. -/
theorem Memory.wfFrom_le {lo lo' : Nat} {m : Memory} (h : lo' ≤ lo) (hm : Memory.wfFrom lo m = true) :
    Memory.wfFrom lo' m = true := by
  cases m with
  | nil => rfl
  | cons kb m =>
    obtain ⟨k, b⟩ := kb
    obtain ⟨hk, hrest⟩ := Memory.wfFrom_cons.mp hm
    exact Memory.wfFrom_cons.mpr ⟨by omega, hrest⟩

/-- A write keeps the canonical form. -/
theorem Memory.wfFrom_write {lo a : Nat} {m : Memory} (hm : Memory.wfFrom lo m = true) (hlo : lo ≤ a)
    (ha : a < 4096) (v : Byte) : Memory.wfFrom lo (Memory.write m a v) = true := by
  induction m generalizing lo with
  | nil =>
    simp only [Memory.write]
    split
    · rfl
    · next hv => exact Memory.wfFrom_cons.mpr ⟨hlo, ha, hv, rfl⟩
  | cons kb m ih =>
    obtain ⟨k, b⟩ := kb
    have hall := hm
    obtain ⟨hk, hk2, hb, hm⟩ := Memory.wfFrom_cons.mp hm
    simp only [Memory.write]
    split
    · exact Memory.wfFrom_cons.mpr ⟨hk, hk2, hb, ih hm (by omega)⟩
    · split
      · next hka =>
        subst hka
        split
        · exact Memory.wfFrom_le (by omega) hm
        · next hv => exact Memory.wfFrom_cons.mpr ⟨hlo, ha, hv, hm⟩
      · split
        · exact hall
        · next hv =>
          exact Memory.wfFrom_cons.mpr ⟨hlo, ha, hv, Memory.wfFrom_cons.mpr ⟨by omega, hk2, hb, hm⟩⟩

/-- A write keeps the canonical form. -/
theorem Memory.wf_write {m : Memory} (hm : Memory.wf m = true) {a : Nat} (ha : a < 4096) (v : Byte) :
    Memory.wf (Memory.write m a v) = true := Memory.wfFrom_write hm (Nat.zero_le a) ha v

/-- Writing a run of bytes that fits keeps the canonical form. -/
theorem Memory.wf_writeBytes {m : Memory} (hm : Memory.wf m = true) {a : Nat} {bs : List Byte}
    (h : a + bs.length ≤ 4096) : Memory.wf (Memory.writeBytes m a bs) = true := by
  induction bs generalizing m a with
  | nil => exact hm
  | cons b bs ih =>
    simp only [List.length_cons] at h
    exact ih (Memory.wf_write hm (by omega) b) (by omega)

/-- A run of bytes leaves every address outside it alone. -/
theorem Memory.read_writeBytes_outside (m : Memory) {a : Nat} {bs : List Byte} {a' : Nat}
    (h : a' < a ∨ a + bs.length ≤ a') : Memory.read (Memory.writeBytes m a bs) a' = Memory.read m a' := by
  induction bs generalizing m a with
  | nil => rfl
  | cons b bs ih =>
    simp only [List.length_cons] at h
    rw [Memory.writeBytes, ih _ (by omega), Memory.read_write_other _ _ (by omega)]

/-- A run of bytes reads back as written. -/
theorem Memory.read_writeBytes_inside {m : Memory} (hm : Memory.wf m = true) {a : Nat} {bs : List Byte}
    (h : a + bs.length ≤ 4096) {j : Nat} (hj : j < bs.length) :
    Memory.read (Memory.writeBytes m a bs) (a + j) = bs[j] := by
  induction bs generalizing m a j with
  | nil => simp at hj
  | cons b bs ih =>
    simp only [List.length_cons] at h hj
    rw [Memory.writeBytes]
    cases j with
    | zero =>
      rw [Memory.read_writeBytes_outside _ (by omega)]
      simpa using Memory.read_write_same hm a b
    | succ j =>
      have := ih (Memory.wf_write hm (a := a) (by omega) b) (a := a + 1) (by omega) (j := j) (by omega)
      rw [show a + (j + 1) = a + 1 + j by omega, this]
      simp

@[simp] theorem Memory.length_bytesFrom (m : Memory) (a n : Nat) : (Memory.bytesFrom m a n).length = n := by
  induction n generalizing a with
  | zero => rfl
  | succ n ih => simp [Memory.bytesFrom, ih]

/-- The bytes read are the bytes at the addresses. -/
@[simp] theorem Memory.getElem_bytesFrom (m : Memory) (a n j : Nat) (h : j < (Memory.bytesFrom m a n).length) :
    (Memory.bytesFrom m a n)[j] = Memory.read m (a + j) := by
  induction n generalizing a j with
  | zero => simp [Memory.bytesFrom] at h
  | succ n ih =>
    cases j with
    | zero => rfl
    | succ j =>
      simp only [Memory.bytesFrom, List.getElem_cons_succ]
      rw [ih]
      congr 1
      omega

theorem Memory.readBytes_some (m : Memory) {a n : Nat} (h : a + n ≤ 4096) :
    Memory.readBytes m a n = some (Memory.bytesFrom m a n) := by
  simp [Memory.readBytes, Config.memSize, h]

theorem Memory.readWord_some (m : Memory) {a : Nat} (h : a + 2 ≤ 4096) :
    Memory.readWord m a = some (wordOfBytes (Memory.read m a) (Memory.read m (a + 1))) := by
  simp [Memory.readWord, Config.memSize, h]

end Sys2Proof.Machine
end

