-- ==== Sys2Proof/Laws/PerInstr.lean ====
section
/-!
SUPPORT. The family RowMatch, one lemma per instruction: the word the encoder gives an instruction has the match value of
its row of the opcode map under that row's mask (spec/30_encoding.md R49).
-/

namespace Sys2Proof.Laws.RowMatch

/-- An instruction's word agrees with its row of R49. -/
def Statement (i : Instr) : Prop :=
  ∃ row ∈ opcodeTable, row.mnemonic = i.mnemonic ∧ row.selects (encode i) = true

/-- The mask 0xF000 keeps nibble 0 of a word of format NNN. -/
theorem nnn_and_family (f : Nibble) (nnn : Addr12) : wordNnn f nnn &&& 0xF000#16 = wordNnn f 0#12 := by
  have h : ∀ nnn : Addr12, nnn &&& 0#12 = 0#12 := fun nnn => BitVec.and_zero
  show (f ++ nnn) &&& ((0xF#4 ++ 0#12 : BitVec (4 + 12))) = f ++ 0#12
  rw [BitVec.and_append, h]
  congr 1
  exact BitVec.and_allOnes

/-- The mask 0xF000 keeps nibble 0 of a word of format XKK. -/
theorem xkk_and_family (f : Nibble) (x : Reg) (kk : Byte) : wordXkk f x kk &&& 0xF000#16 = wordXkk f 0 0#8 := by
  show (f ++ regBits x ++ kk) &&& ((0xF#4 ++ 0#4 ++ 0#8 : BitVec (4 + 4 + 8))) = f ++ 0#4 ++ 0#8
  rw [BitVec.and_append, BitVec.and_append, BitVec.and_zero, BitVec.and_zero]
  congr 2
  exact BitVec.and_allOnes

/-- The mask 0xF00F keeps nibbles 0 and 3 of a word of format XY. -/
theorem xyn_and_family_sub (f : Nibble) (x y : Reg) (n : Nibble) :
    wordXyn f x y n &&& 0xF00F#16 = wordXyn f 0 0 n := by
  show (f ++ regBits x ++ regBits y ++ n) &&& ((0xF#4 ++ 0#4 ++ 0#4 ++ 0xF#4 : BitVec (4 + 4 + 4 + 4))) =
    f ++ 0#4 ++ 0#4 ++ n
  rw [BitVec.and_append, BitVec.and_append, BitVec.and_append, BitVec.and_zero, BitVec.and_zero]
  congr 3 <;> exact BitVec.and_allOnes

/-- The mask 0xF000 keeps nibble 0 of a word of format XYN. -/
theorem xyn_and_family (f : Nibble) (x y : Reg) (n : Nibble) : wordXyn f x y n &&& 0xF000#16 = wordXyn f 0 0 0#4 := by
  show (f ++ regBits x ++ regBits y ++ n) &&& ((0xF#4 ++ 0#4 ++ 0#4 ++ 0#4 : BitVec (4 + 4 + 4 + 4))) =
    f ++ 0#4 ++ 0#4 ++ 0#4
  rw [BitVec.and_append, BitVec.and_append, BitVec.and_append, BitVec.and_zero, BitVec.and_zero, BitVec.and_zero]
  congr 3
  exact BitVec.and_allOnes

/-- A row whose mask leaves the word's match value is selected. -/
theorem selects_of_and {row : OpcodeRow} {op : Word} (h : op &&& row.mask = row.value) : row.selects op = true := by
  simp [OpcodeRow.selects, h]

theorem cls : Statement .cls := ⟨⟨"CLS", 0x00E0, 0xFFFF⟩, by decide, rfl, by decide⟩

theorem ret : Statement .ret := ⟨⟨"RET", 0x00EE, 0xFFFF⟩, by decide, rfl, by decide⟩

theorem sys (nnn : Addr12) : Statement (.sys nnn) :=
  ⟨⟨"SYS", 0x0000, 0xF000⟩, by decide, rfl, selects_of_and (nnn_and_family 0x0 nnn)⟩

theorem jp (nnn : Addr12) : Statement (.jp nnn) :=
  ⟨⟨"JP", 0x1000, 0xF000⟩, by decide, rfl, selects_of_and (nnn_and_family 0x1 nnn)⟩

theorem call (nnn : Addr12) : Statement (.call nnn) :=
  ⟨⟨"CALL", 0x2000, 0xF000⟩, by decide, rfl, selects_of_and (nnn_and_family 0x2 nnn)⟩

theorem seVxKk (x : Reg) (kk : Byte) : Statement (.seVxKk x kk) :=
  ⟨⟨"SE_VX_KK", 0x3000, 0xF000⟩, by decide, rfl, selects_of_and (xkk_and_family 0x3 x kk)⟩

theorem sneVxKk (x : Reg) (kk : Byte) : Statement (.sneVxKk x kk) :=
  ⟨⟨"SNE_VX_KK", 0x4000, 0xF000⟩, by decide, rfl, selects_of_and (xkk_and_family 0x4 x kk)⟩

theorem seVxVy (x y : Reg) : Statement (.seVxVy x y) :=
  ⟨⟨"SE_VX_VY", 0x5000, 0xF00F⟩, by decide, rfl, selects_of_and (xyn_and_family_sub 0x5 x y 0x0)⟩

theorem ldVxKk (x : Reg) (kk : Byte) : Statement (.ldVxKk x kk) :=
  ⟨⟨"LD_VX_KK", 0x6000, 0xF000⟩, by decide, rfl, selects_of_and (xkk_and_family 0x6 x kk)⟩

theorem addVxKk (x : Reg) (kk : Byte) : Statement (.addVxKk x kk) :=
  ⟨⟨"ADD_VX_KK", 0x7000, 0xF000⟩, by decide, rfl, selects_of_and (xkk_and_family 0x7 x kk)⟩

theorem ldVxVy (x y : Reg) : Statement (.ldVxVy x y) :=
  ⟨⟨"LD_VX_VY", 0x8000, 0xF00F⟩, by decide, rfl, selects_of_and (xyn_and_family_sub 0x8 x y 0x0)⟩

theorem or (x y : Reg) : Statement (.or x y) :=
  ⟨⟨"OR", 0x8001, 0xF00F⟩, by decide, rfl, selects_of_and (xyn_and_family_sub 0x8 x y 0x1)⟩

theorem and (x y : Reg) : Statement (.and x y) :=
  ⟨⟨"AND", 0x8002, 0xF00F⟩, by decide, rfl, selects_of_and (xyn_and_family_sub 0x8 x y 0x2)⟩

theorem xor (x y : Reg) : Statement (.xor x y) :=
  ⟨⟨"XOR", 0x8003, 0xF00F⟩, by decide, rfl, selects_of_and (xyn_and_family_sub 0x8 x y 0x3)⟩

theorem addVxVy (x y : Reg) : Statement (.addVxVy x y) :=
  ⟨⟨"ADD_VX_VY", 0x8004, 0xF00F⟩, by decide, rfl, selects_of_and (xyn_and_family_sub 0x8 x y 0x4)⟩

theorem sub (x y : Reg) : Statement (.sub x y) :=
  ⟨⟨"SUB", 0x8005, 0xF00F⟩, by decide, rfl, selects_of_and (xyn_and_family_sub 0x8 x y 0x5)⟩

theorem shr (x y : Reg) : Statement (.shr x y) :=
  ⟨⟨"SHR", 0x8006, 0xF00F⟩, by decide, rfl, selects_of_and (xyn_and_family_sub 0x8 x y 0x6)⟩

theorem subn (x y : Reg) : Statement (.subn x y) :=
  ⟨⟨"SUBN", 0x8007, 0xF00F⟩, by decide, rfl, selects_of_and (xyn_and_family_sub 0x8 x y 0x7)⟩

theorem shl (x y : Reg) : Statement (.shl x y) :=
  ⟨⟨"SHL", 0x800E, 0xF00F⟩, by decide, rfl, selects_of_and (xyn_and_family_sub 0x8 x y 0xE)⟩

theorem ldINnn (nnn : Addr12) : Statement (.ldINnn nnn) :=
  ⟨⟨"LD_I_NNN", 0xA000, 0xF000⟩, by decide, rfl, selects_of_and (nnn_and_family 0xA nnn)⟩

theorem drw (x y : Reg) (n : Nibble) : Statement (.drw x y n) :=
  ⟨⟨"DRW", 0xD000, 0xF000⟩, by decide, rfl, selects_of_and (xyn_and_family 0xD x y n)⟩

end Sys2Proof.Laws.RowMatch
end

