-- ==== Sys2Proof/Laws/State.lean ====
section
/-!
SUPPORT. The small lemmas of the state: what each update of Machine/Ops.lean does to each field, one lemma per field per
update; the update of a field by its own value; and the general registers read after a write.
-/

namespace Sys2Proof.Machine

/-! ### setV -/

@[simp] theorem State.setV_v (s : State) (x : Reg) (b : Byte) :
    (s.setV x b).v = s.v.set x.val b := rfl

@[simp] theorem State.setV_i (s : State) (x : Reg) (b : Byte) :
    (s.setV x b).i = s.i := rfl

@[simp] theorem State.setV_pc (s : State) (x : Reg) (b : Byte) :
    (s.setV x b).pc = s.pc := rfl

@[simp] theorem State.setV_sp (s : State) (x : Reg) (b : Byte) :
    (s.setV x b).sp = s.sp := rfl

@[simp] theorem State.setV_stk (s : State) (x : Reg) (b : Byte) :
    (s.setV x b).stk = s.stk := rfl

@[simp] theorem State.setV_dt (s : State) (x : Reg) (b : Byte) :
    (s.setV x b).dt = s.dt := rfl

@[simp] theorem State.setV_st (s : State) (x : Reg) (b : Byte) :
    (s.setV x b).st = s.st := rfl

@[simp] theorem State.setV_fb (s : State) (x : Reg) (b : Byte) :
    (s.setV x b).fb = s.fb := rfl

@[simp] theorem State.setV_mem (s : State) (x : Reg) (b : Byte) :
    (s.setV x b).mem = s.mem := rfl

@[simp] theorem State.setV_fault (s : State) (x : Reg) (b : Byte) :
    (s.setV x b).fault = s.fault := rfl

@[simp] theorem State.setV_loaded (s : State) (x : Reg) (b : Byte) :
    (s.setV x b).loaded = s.loaded := rfl

@[simp] theorem State.setV_report (s : State) (x : Reg) (b : Byte) :
    (s.setV x b).report = s.report := rfl

@[simp] theorem State.setV_draws (s : State) (x : Reg) (b : Byte) :
    (s.setV x b).draws = s.draws := rfl

/-! ### setI -/

@[simp] theorem State.setI_v (s : State) (w : Word) :
    (s.setI w).v = s.v := rfl

@[simp] theorem State.setI_i (s : State) (w : Word) :
    (s.setI w).i = w := rfl

@[simp] theorem State.setI_pc (s : State) (w : Word) :
    (s.setI w).pc = s.pc := rfl

@[simp] theorem State.setI_sp (s : State) (w : Word) :
    (s.setI w).sp = s.sp := rfl

@[simp] theorem State.setI_stk (s : State) (w : Word) :
    (s.setI w).stk = s.stk := rfl

@[simp] theorem State.setI_dt (s : State) (w : Word) :
    (s.setI w).dt = s.dt := rfl

@[simp] theorem State.setI_st (s : State) (w : Word) :
    (s.setI w).st = s.st := rfl

@[simp] theorem State.setI_fb (s : State) (w : Word) :
    (s.setI w).fb = s.fb := rfl

@[simp] theorem State.setI_mem (s : State) (w : Word) :
    (s.setI w).mem = s.mem := rfl

@[simp] theorem State.setI_fault (s : State) (w : Word) :
    (s.setI w).fault = s.fault := rfl

@[simp] theorem State.setI_loaded (s : State) (w : Word) :
    (s.setI w).loaded = s.loaded := rfl

@[simp] theorem State.setI_report (s : State) (w : Word) :
    (s.setI w).report = s.report := rfl

@[simp] theorem State.setI_draws (s : State) (w : Word) :
    (s.setI w).draws = s.draws := rfl

/-! ### setPc -/

@[simp] theorem State.setPc_v (s : State) (w : Word) :
    (s.setPc w).v = s.v := rfl

@[simp] theorem State.setPc_i (s : State) (w : Word) :
    (s.setPc w).i = s.i := rfl

@[simp] theorem State.setPc_pc (s : State) (w : Word) :
    (s.setPc w).pc = w := rfl

@[simp] theorem State.setPc_sp (s : State) (w : Word) :
    (s.setPc w).sp = s.sp := rfl

@[simp] theorem State.setPc_stk (s : State) (w : Word) :
    (s.setPc w).stk = s.stk := rfl

@[simp] theorem State.setPc_dt (s : State) (w : Word) :
    (s.setPc w).dt = s.dt := rfl

@[simp] theorem State.setPc_st (s : State) (w : Word) :
    (s.setPc w).st = s.st := rfl

@[simp] theorem State.setPc_fb (s : State) (w : Word) :
    (s.setPc w).fb = s.fb := rfl

@[simp] theorem State.setPc_mem (s : State) (w : Word) :
    (s.setPc w).mem = s.mem := rfl

@[simp] theorem State.setPc_fault (s : State) (w : Word) :
    (s.setPc w).fault = s.fault := rfl

@[simp] theorem State.setPc_loaded (s : State) (w : Word) :
    (s.setPc w).loaded = s.loaded := rfl

@[simp] theorem State.setPc_report (s : State) (w : Word) :
    (s.setPc w).report = s.report := rfl

@[simp] theorem State.setPc_draws (s : State) (w : Word) :
    (s.setPc w).draws = s.draws := rfl

/-! ### setFb -/

@[simp] theorem State.setFb_v (s : State) (d : Display) :
    (s.setFb d).v = s.v := rfl

@[simp] theorem State.setFb_i (s : State) (d : Display) :
    (s.setFb d).i = s.i := rfl

@[simp] theorem State.setFb_pc (s : State) (d : Display) :
    (s.setFb d).pc = s.pc := rfl

@[simp] theorem State.setFb_sp (s : State) (d : Display) :
    (s.setFb d).sp = s.sp := rfl

@[simp] theorem State.setFb_stk (s : State) (d : Display) :
    (s.setFb d).stk = s.stk := rfl

@[simp] theorem State.setFb_dt (s : State) (d : Display) :
    (s.setFb d).dt = s.dt := rfl

@[simp] theorem State.setFb_st (s : State) (d : Display) :
    (s.setFb d).st = s.st := rfl

@[simp] theorem State.setFb_fb (s : State) (d : Display) :
    (s.setFb d).fb = d := rfl

@[simp] theorem State.setFb_mem (s : State) (d : Display) :
    (s.setFb d).mem = s.mem := rfl

@[simp] theorem State.setFb_fault (s : State) (d : Display) :
    (s.setFb d).fault = s.fault := rfl

@[simp] theorem State.setFb_loaded (s : State) (d : Display) :
    (s.setFb d).loaded = s.loaded := rfl

@[simp] theorem State.setFb_report (s : State) (d : Display) :
    (s.setFb d).report = s.report := rfl

@[simp] theorem State.setFb_draws (s : State) (d : Display) :
    (s.setFb d).draws = s.draws := rfl

/-! ### advancePc -/

@[simp] theorem State.advancePc_v (s : State) :
    (s.advancePc).v = s.v := rfl

@[simp] theorem State.advancePc_i (s : State) :
    (s.advancePc).i = s.i := rfl

@[simp] theorem State.advancePc_pc (s : State) :
    (s.advancePc).pc = s.pc + 2 := rfl

@[simp] theorem State.advancePc_sp (s : State) :
    (s.advancePc).sp = s.sp := rfl

@[simp] theorem State.advancePc_stk (s : State) :
    (s.advancePc).stk = s.stk := rfl

@[simp] theorem State.advancePc_dt (s : State) :
    (s.advancePc).dt = s.dt := rfl

@[simp] theorem State.advancePc_st (s : State) :
    (s.advancePc).st = s.st := rfl

@[simp] theorem State.advancePc_fb (s : State) :
    (s.advancePc).fb = s.fb := rfl

@[simp] theorem State.advancePc_mem (s : State) :
    (s.advancePc).mem = s.mem := rfl

@[simp] theorem State.advancePc_fault (s : State) :
    (s.advancePc).fault = s.fault := rfl

@[simp] theorem State.advancePc_loaded (s : State) :
    (s.advancePc).loaded = s.loaded := rfl

@[simp] theorem State.advancePc_report (s : State) :
    (s.advancePc).report = s.report := rfl

@[simp] theorem State.advancePc_draws (s : State) :
    (s.advancePc).draws = s.draws := rfl

/-! ### timerUpdate -/

@[simp] theorem State.timerUpdate_v (s : State) (a b : Bool) :
    (State.timerUpdate a b s).v = s.v := rfl

@[simp] theorem State.timerUpdate_i (s : State) (a b : Bool) :
    (State.timerUpdate a b s).i = s.i := rfl

@[simp] theorem State.timerUpdate_pc (s : State) (a b : Bool) :
    (State.timerUpdate a b s).pc = s.pc := rfl

@[simp] theorem State.timerUpdate_sp (s : State) (a b : Bool) :
    (State.timerUpdate a b s).sp = s.sp := rfl

@[simp] theorem State.timerUpdate_stk (s : State) (a b : Bool) :
    (State.timerUpdate a b s).stk = s.stk := rfl

@[simp] theorem State.timerUpdate_dt (s : State) (a b : Bool) :
    (State.timerUpdate a b s).dt = countDown a s.dt := rfl

@[simp] theorem State.timerUpdate_st (s : State) (a b : Bool) :
    (State.timerUpdate a b s).st = countDown b s.st := rfl

@[simp] theorem State.timerUpdate_fb (s : State) (a b : Bool) :
    (State.timerUpdate a b s).fb = s.fb := rfl

@[simp] theorem State.timerUpdate_mem (s : State) (a b : Bool) :
    (State.timerUpdate a b s).mem = s.mem := rfl

@[simp] theorem State.timerUpdate_fault (s : State) (a b : Bool) :
    (State.timerUpdate a b s).fault = s.fault := rfl

@[simp] theorem State.timerUpdate_loaded (s : State) (a b : Bool) :
    (State.timerUpdate a b s).loaded = s.loaded := rfl

@[simp] theorem State.timerUpdate_report (s : State) (a b : Bool) :
    (State.timerUpdate a b s).report = s.report := rfl

@[simp] theorem State.timerUpdate_draws (s : State) (a b : Bool) :
    (State.timerUpdate a b s).draws = s.draws + 1 := rfl

/-! ### raise -/

@[simp] theorem State.raise_v (s : State) (c : FatalCause) (addr word : Word) :
    (s.raise c addr word).v = s.v := rfl

@[simp] theorem State.raise_i (s : State) (c : FatalCause) (addr word : Word) :
    (s.raise c addr word).i = s.i := rfl

@[simp] theorem State.raise_pc (s : State) (c : FatalCause) (addr word : Word) :
    (s.raise c addr word).pc = s.pc := rfl

@[simp] theorem State.raise_sp (s : State) (c : FatalCause) (addr word : Word) :
    (s.raise c addr word).sp = s.sp := rfl

@[simp] theorem State.raise_stk (s : State) (c : FatalCause) (addr word : Word) :
    (s.raise c addr word).stk = s.stk := rfl

@[simp] theorem State.raise_dt (s : State) (c : FatalCause) (addr word : Word) :
    (s.raise c addr word).dt = s.dt := rfl

@[simp] theorem State.raise_st (s : State) (c : FatalCause) (addr word : Word) :
    (s.raise c addr word).st = s.st := rfl

@[simp] theorem State.raise_fb (s : State) (c : FatalCause) (addr word : Word) :
    (s.raise c addr word).fb = s.fb := rfl

@[simp] theorem State.raise_mem (s : State) (c : FatalCause) (addr word : Word) :
    (s.raise c addr word).mem = s.mem := rfl

@[simp] theorem State.raise_fault (s : State) (c : FatalCause) (addr word : Word) :
    (s.raise c addr word).fault = c.code := rfl

@[simp] theorem State.raise_loaded (s : State) (c : FatalCause) (addr word : Word) :
    (s.raise c addr word).loaded = s.loaded := rfl

@[simp] theorem State.raise_report (s : State) (c : FatalCause) (addr word : Word) :
    (s.raise c addr word).report = some ⟨c.code, addr, word⟩ := rfl

@[simp] theorem State.raise_draws (s : State) (c : FatalCause) (addr word : Word) :
    (s.raise c addr word).draws = s.draws := rfl

/-! ### reportUnknown -/

@[simp] theorem State.reportUnknown_v (s : State) (addr word : Word) :
    (s.reportUnknown addr word).v = s.v := rfl

@[simp] theorem State.reportUnknown_i (s : State) (addr word : Word) :
    (s.reportUnknown addr word).i = s.i := rfl

@[simp] theorem State.reportUnknown_pc (s : State) (addr word : Word) :
    (s.reportUnknown addr word).pc = s.pc := rfl

@[simp] theorem State.reportUnknown_sp (s : State) (addr word : Word) :
    (s.reportUnknown addr word).sp = s.sp := rfl

@[simp] theorem State.reportUnknown_stk (s : State) (addr word : Word) :
    (s.reportUnknown addr word).stk = s.stk := rfl

@[simp] theorem State.reportUnknown_dt (s : State) (addr word : Word) :
    (s.reportUnknown addr word).dt = s.dt := rfl

@[simp] theorem State.reportUnknown_st (s : State) (addr word : Word) :
    (s.reportUnknown addr word).st = s.st := rfl

@[simp] theorem State.reportUnknown_fb (s : State) (addr word : Word) :
    (s.reportUnknown addr word).fb = s.fb := rfl

@[simp] theorem State.reportUnknown_mem (s : State) (addr word : Word) :
    (s.reportUnknown addr word).mem = s.mem := rfl

@[simp] theorem State.reportUnknown_fault (s : State) (addr word : Word) :
    (s.reportUnknown addr word).fault = s.fault := rfl

@[simp] theorem State.reportUnknown_loaded (s : State) (addr word : Word) :
    (s.reportUnknown addr word).loaded = s.loaded := rfl

@[simp] theorem State.reportUnknown_report (s : State) (addr word : Word) :
    (s.reportUnknown addr word).report = some ⟨unknownOpcodeCode, addr, word⟩ := rfl

@[simp] theorem State.reportUnknown_draws (s : State) (addr word : Word) :
    (s.reportUnknown addr word).draws = s.draws := rfl

/-! ### haltedStep -/

@[simp] theorem State.haltedStep_v (s : State) :
    (s.haltedStep).v = s.v := rfl

@[simp] theorem State.haltedStep_i (s : State) :
    (s.haltedStep).i = s.i := rfl

@[simp] theorem State.haltedStep_pc (s : State) :
    (s.haltedStep).pc = s.pc := rfl

@[simp] theorem State.haltedStep_sp (s : State) :
    (s.haltedStep).sp = s.sp := rfl

@[simp] theorem State.haltedStep_stk (s : State) :
    (s.haltedStep).stk = s.stk := rfl

@[simp] theorem State.haltedStep_dt (s : State) :
    (s.haltedStep).dt = s.dt := rfl

@[simp] theorem State.haltedStep_st (s : State) :
    (s.haltedStep).st = s.st := rfl

@[simp] theorem State.haltedStep_fb (s : State) :
    (s.haltedStep).fb = s.fb := rfl

@[simp] theorem State.haltedStep_mem (s : State) :
    (s.haltedStep).mem = s.mem := rfl

@[simp] theorem State.haltedStep_fault (s : State) :
    (s.haltedStep).fault = s.fault := rfl

@[simp] theorem State.haltedStep_loaded (s : State) :
    (s.haltedStep).loaded = s.loaded := rfl

@[simp] theorem State.haltedStep_report (s : State) :
    (s.haltedStep).report = some ⟨s.fault, 0x0000, 0x0000⟩ := rfl

@[simp] theorem State.haltedStep_draws (s : State) :
    (s.haltedStep).draws = s.draws := rfl

/-! ### fetched -/

@[simp] theorem State.fetched_v (s : State) (op : Word) :
    (s.fetched op).v = s.v := rfl

@[simp] theorem State.fetched_i (s : State) (op : Word) :
    (s.fetched op).i = s.i := rfl

@[simp] theorem State.fetched_pc (s : State) (op : Word) :
    (s.fetched op).pc = s.pc + 2 := rfl

@[simp] theorem State.fetched_sp (s : State) (op : Word) :
    (s.fetched op).sp = s.sp := rfl

@[simp] theorem State.fetched_stk (s : State) (op : Word) :
    (s.fetched op).stk = s.stk := rfl

@[simp] theorem State.fetched_dt (s : State) (op : Word) :
    (s.fetched op).dt = s.dt := rfl

@[simp] theorem State.fetched_st (s : State) (op : Word) :
    (s.fetched op).st = s.st := rfl

@[simp] theorem State.fetched_fb (s : State) (op : Word) :
    (s.fetched op).fb = s.fb := rfl

@[simp] theorem State.fetched_mem (s : State) (op : Word) :
    (s.fetched op).mem = s.mem := rfl

@[simp] theorem State.fetched_fault (s : State) (op : Word) :
    (s.fetched op).fault = s.fault := rfl

@[simp] theorem State.fetched_loaded (s : State) (op : Word) :
    (s.fetched op).loaded = s.loaded := rfl

@[simp] theorem State.fetched_report (s : State) (op : Word) :
    (s.fetched op).report = some ⟨okCode, s.pc, op⟩ := rfl

@[simp] theorem State.fetched_draws (s : State) (op : Word) :
    (s.fetched op).draws = s.draws := rfl

/-! ### writeFlagged and skipIf -/

/-- A flag-writing instruction writes general registers only. -/
theorem State.writeFlagged_frame (s : State) (x : Reg) (r : AluResult) :
    s.writeFlagged x r = { s with v := (s.writeFlagged x r).v } := rfl

/-- A skip writes `pc` only. -/
theorem State.skipIf_eq (s : State) (c : Bool) :
    s.skipIf c = { s with pc := if c then s.pc + 2 else s.pc } := by
  cases c <;> rfl

/-! ### General registers -/

@[simp] theorem State.getV_setV_same (s : State) (x : Reg) (b : Byte) : (s.setV x b).getV x = b := by
  simp [State.getV]

@[simp] theorem State.getV_setV_other (s : State) {x y : Reg} (b : Byte) (h : y ≠ x) :
    (s.setV x b).getV y = s.getV y := by
  have : x.val ≠ y.val := fun e => h (Fin.ext e.symm)
  simp [State.getV, Vector.getElem_set_ne, this]

/-- A general register read after a write, in one equation. -/
theorem State.getV_setV (s : State) (x y : Reg) (b : Byte) :
    (s.setV x b).getV y = if y = x then b else s.getV y := by
  by_cases h : y = x
  · subst h; simp
  · simp [h]

/-- What a flag-writing instruction leaves in each register: the result in `V[x]`, the flag in VF unless `x` = 15 (R75). -/
theorem State.getV_writeFlagged (s : State) (x y : Reg) (r : AluResult) :
    (s.writeFlagged x r).getV y =
      if y = x then r.result else if y = Config.flagReg then flagByte r.flag else s.getV y := by
  simp [State.writeFlagged, State.getV_setV]

/-- The operand reads are register reads. -/
@[simp] theorem State.vx_eq (s : State) (x : Reg) : s.vx x = s.getV x := rfl

@[simp] theorem State.vy_eq (s : State) (y : Reg) : s.vy y = s.getV y := rfl

/-- Registers of states that hold the same register file. -/
theorem State.getV_congr {s t : State} (h : t.v = s.v) (x : Reg) : t.getV x = s.getV x := by
  simp [State.getV, h]

/-! ### Stack -/

theorem State.push?_full {s : State} (w : Word) (h : s.sp = 16) : s.push? w = none := by
  simp [State.push?, h]

/-- A push that is not refused: the slot at `SP` receives the word and `SP` goes up by one. -/
theorem State.push?_some {s : State} (w : Word) (h : s.sp.val < 16) :
    s.push? w = some { s with stk := s.stk.set s.sp.val w, sp := ⟨s.sp.val + 1, by omega⟩ } := by
  simp [State.push?, h]

theorem State.pop?_empty {s : State} (h : s.sp = 0) : s.pop? = none := by
  simp [State.pop?, h]

/-- A pop that is not refused: the newest entry, and `SP` down by one. -/
theorem State.pop?_some {s : State} (h : 0 < s.sp.val) :
    s.pop? = some (s.stk[s.sp.val - 1], { s with sp := ⟨s.sp.val - 1, by omega⟩ }) := by
  simp [State.pop?, h]

/-- Everything a push can do. -/
theorem State.push?_cases (s : State) (w : Word) :
    (s.sp = 16 ∧ s.push? w = none) ∨
    (∃ h : s.sp.val < 16,
      s.push? w = some { s with stk := s.stk.set s.sp.val w, sp := ⟨s.sp.val + 1, by omega⟩ }) := by
  by_cases h : s.sp.val < 16
  · exact .inr ⟨h, State.push?_some w h⟩
  · have : s.sp = 16 := Fin.ext (by have := s.sp.isLt; show s.sp.val = 16; omega)
    exact .inl ⟨this, State.push?_full w this⟩

/-- Everything a pop can do. -/
theorem State.pop?_cases (s : State) :
    (s.sp = 0 ∧ s.pop? = none) ∨
    (∃ h : 0 < s.sp.val,
      s.pop? = some (s.stk[s.sp.val - 1], { s with sp := ⟨s.sp.val - 1, by omega⟩ })) := by
  by_cases h : 0 < s.sp.val
  · exact .inr ⟨h, State.pop?_some h⟩
  · have : s.sp = 0 := Fin.ext (by show s.sp.val = 0; omega)
    exact .inl ⟨this, State.pop?_empty this⟩

/-! ### Timers -/

@[simp] theorem countDown_zero (due : Bool) : countDown due 0x00#8 = 0x00#8 := rfl

/-- A timer counts down by exactly 1 when it is due and above 0 (R110). -/
theorem countDown_toNat (due : Bool) (t : Byte) :
    (countDown due t).toNat = if due = true ∧ 0 < t.toNat then t.toNat - 1 else t.toNat := by
  by_cases h : t = 0x00#8
  · subst h; simp
  · have h' : 0 < t.toNat := by
      rcases Nat.eq_zero_or_pos t.toNat with e | e
      · exact absurd (BitVec.eq_of_toNat_eq (by simpa using e)) h
      · exact e
    cases due
    · simp [countDown, h]
    · have hlt := t.isLt
      simp only [countDown, h, if_false, if_true, true_and, h']
      rw [BitVec.toNat_sub]
      have h1 : (1 : Byte).toNat = 1 := rfl
      omega

end Sys2Proof.Machine
end

