-- ==== Sys2Proof/Laws/Step.lean ====
section
/-!
SUPPORT. What a step can do, said once: the meanings with more than one outcome (RET, CALL, DRW), the cycle and runs
(spec/30_encoding.md R47, spec/60_exceptions.md R102).
-/

namespace Sys2Proof.Machine

/-- Everything RET can do (R60): the fault with an empty stack, else the newest entry into `PC`. -/
theorem execRet_cases (s : State) :
    (s.sp = 0 ∧ execRet s = .next (s.raise .stackUnderflow s.fetchedFrom (encode .ret))) ∨
    (∃ h : 0 < s.sp.val,
      execRet s = .next { s with sp := ⟨s.sp.val - 1, by omega⟩, pc := s.stk[s.sp.val - 1] }) := by
  rcases s.pop?_cases with ⟨h, e⟩ | ⟨h, e⟩
  · exact .inl ⟨h, by simp only [execRet, e]⟩
  · exact .inr ⟨h, by simp only [execRet, e, State.setPc]⟩

/-- Everything CALL can do (R63): the fault with a full stack, else the push and the jump. -/
theorem execCall_cases (nnn : Addr12) (s : State) :
    (s.sp = 16 ∧ execCall nnn s = .next (s.raise .stackOverflow s.fetchedFrom (encode (.call nnn)))) ∨
    (∃ h : s.sp.val < 16,
      execCall nnn s =
        .next { s with stk := s.stk.set s.sp.val s.pc, sp := ⟨s.sp.val + 1, by omega⟩, pc := addrOperand nnn }) := by
  rcases s.push?_cases s.pc with ⟨h, e⟩ | ⟨h, e⟩
  · exact .inl ⟨h, by simp only [execCall, e]⟩
  · exact .inr ⟨h, by simp only [execCall, e, State.setPc]⟩

/-- The sprite bytes of a draw within bounds. -/
theorem State.spriteRows_some {s : State} {n : Nibble} (h : s.i.toNat + n.toNat ≤ 4096) :
    s.spriteRows n = some (Memory.bytesFrom s.mem s.i.toNat n.toNat) :=
  Memory.readBytes_some s.mem h

/-- Everything DRW can do (R92): the fault past the end of memory, else the blit and the flag. -/
theorem execDrw_cases (x y : Reg) (n : Nibble) (s : State) :
    (4096 < s.i.toNat + n.toNat ∧
      execDrw x y n s = .next (s.raise .outOfBoundsSprite s.fetchedFrom (encode (.drw x y n)))) ∨
    (s.i.toNat + n.toNat ≤ 4096 ∧
      execDrw x y n s = .next ((s.setFb (blit (originColumn (s.getV x)) (originRow (s.getV y))
          (Memory.bytesFrom s.mem s.i.toNat n.toNat) s.fb).fb).setV Config.flagReg
        (flagByte (blit (originColumn (s.getV x)) (originRow (s.getV y))
          (Memory.bytesFrom s.mem s.i.toNat n.toNat) s.fb).coll))) := by
  by_cases h : s.i.toNat + n.toNat ≤ 4096
  · have hb : s.spriteOutOfBounds n = false := by
      simp [State.spriteOutOfBounds, State.spriteBase, spriteHeight, Config.memSize, h]
    exact .inr ⟨h, by simp [execDrw, hb, State.spriteRows_some h]⟩
  · have hb : s.spriteOutOfBounds n = true := by
      simp [State.spriteOutOfBounds, State.spriteBase, spriteHeight, Config.memSize]; omega
    exact .inl ⟨by omega, by simp [execDrw, hb]⟩

/-- Every instruction runs: the execute stage answers a next state, never a fault of the host's kind nor a refusal. -/
theorem exec_next (i : Instr) (s : State) : ∃ t, exec i s = .next t := by
  cases i with
  | ret => rcases execRet_cases s with ⟨_, e⟩ | ⟨_, e⟩ <;> exact ⟨_, e⟩
  | call nnn => rcases execCall_cases nnn s with ⟨_, e⟩ | ⟨_, e⟩ <;> exact ⟨_, e⟩
  | drw x y n => rcases execDrw_cases x y n s with ⟨_, e⟩ | ⟨_, e⟩ <;> exact ⟨_, e⟩
  | _ => exact ⟨_, rfl⟩

/-- What an instruction can raise (R100 to R102): nothing, or the one fatal cause of its own rule, and then the whole next
state is the raise. -/
theorem exec_raises {i : Instr} {s t : State} (h : exec i s = .next t) :
    (t.fault = s.fault ∧ t.report = s.report ∧ (∀ nnn, i = .call nnn → s.sp ≠ 16) ∧ (i = .ret → s.sp ≠ 0) ∧
      (∀ x y n, i = .drw x y n → s.i.toNat + n.toNat ≤ 4096)) ∨
    (∃ nnn, i = .call nnn ∧ s.sp = 16 ∧ t = s.raise .stackOverflow s.fetchedFrom (encode i)) ∨
    (i = .ret ∧ s.sp = 0 ∧ t = s.raise .stackUnderflow s.fetchedFrom (encode i)) ∨
    (∃ x y n, i = .drw x y n ∧ 4096 < s.i.toNat + n.toNat ∧
      t = s.raise .outOfBoundsSprite s.fetchedFrom (encode i)) := by
  cases i with
  | ret =>
    change execRet s = _ at h
    rcases execRet_cases s with ⟨h0, e⟩ | ⟨h0, e⟩ <;> rw [e] at h <;> cases h
    · exact .inr (.inr (.inl ⟨rfl, h0, rfl⟩))
    · exact .inl ⟨rfl, rfl, nofun, fun _ e => by simp [e] at h0, nofun⟩
  | call nnn =>
    change execCall nnn s = _ at h
    rcases execCall_cases nnn s with ⟨h0, e⟩ | ⟨h0, e⟩ <;> rw [e] at h <;> cases h
    · exact .inr (.inl ⟨nnn, rfl, h0, rfl⟩)
    · exact .inl ⟨rfl, rfl, fun _ _ e => by simp [e] at h0, nofun, nofun⟩
  | drw x y n =>
    change execDrw x y n s = _ at h
    rcases execDrw_cases x y n s with ⟨h0, e⟩ | ⟨h0, e⟩ <;> rw [e] at h <;> cases h
    · exact .inr (.inr (.inr ⟨x, y, n, rfl, h0, rfl⟩))
    · exact .inl ⟨rfl, rfl, nofun, nofun, fun _ _ _ e => by cases e; exact h0⟩
  | seVxKk x kk => cases h; exact .inl ⟨by simp [State.skipIf_eq], by simp [State.skipIf_eq], nofun, nofun, nofun⟩
  | sneVxKk x kk => cases h; exact .inl ⟨by simp [State.skipIf_eq], by simp [State.skipIf_eq], nofun, nofun, nofun⟩
  | seVxVy x y => cases h; exact .inl ⟨by simp [State.skipIf_eq], by simp [State.skipIf_eq], nofun, nofun, nofun⟩
  | _ => cases h; exact .inl ⟨rfl, rfl, nofun, nofun, nofun⟩

/-- The word at `PC`, as the fetch reads it. -/
theorem State.readWord_atPc {s : State} (h : s.pc.toNat < 4094) :
    Memory.readWord s.mem s.pc.toNat = some (BitVec.ofNat 16 s.wordAtPc) := by
  rw [Memory.readWord_some _ (by omega)]
  congr 1
  apply BitVec.eq_of_toNat_eq
  have h1 := (Memory.read s.mem s.pc.toNat).isLt
  have h2 := (Memory.read s.mem (s.pc.toNat + 1)).isLt
  rw [wordOfBytes_toNat, BitVec.toNat_ofNat, State.wordAtPc]
  omega

/-- Everything a step of a running core can do after its timer update, in R102's order: the fetch fault, the unknown
opcode, or the instruction. -/
theorem fetchDecodeExecute_cases (s : State) :
    (4094 ≤ s.pc.toNat ∧ fetchDecodeExecute s = .next (s.raise .outOfBoundsFetch s.pc 0x0000)) ∨
    (s.pc.toNat < 4094 ∧ ∃ why, decodeWord (BitVec.ofNat 16 s.wordAtPc) = .unknown why ∧
      fetchDecodeExecute s = .next ((s.fetched (BitVec.ofNat 16 s.wordAtPc)).reportUnknown s.pc
        (BitVec.ofNat 16 s.wordAtPc))) ∨
    (s.pc.toNat < 4094 ∧ ∃ i, decodeWord (BitVec.ofNat 16 s.wordAtPc) = .instr i ∧
      fetchDecodeExecute s = exec i (s.fetched (BitVec.ofNat 16 s.wordAtPc))) := by
  by_cases h : 4094 ≤ s.pc.toNat
  · exact .inl ⟨h, by simp [fetchDecodeExecute, Config.fetchLimit, h]⟩
  · have h' : s.pc.toNat < 4094 := by omega
    have hw := State.readWord_atPc h'
    cases hd : decodeWord (BitVec.ofNat 16 s.wordAtPc) with
    | unknown why =>
      exact .inr (.inl ⟨h', why, rfl, by simp [fetchDecodeExecute, Config.fetchLimit, h, hw, hd]⟩)
    | instr i =>
      exact .inr (.inr ⟨h', i, rfl, by simp [fetchDecodeExecute, Config.fetchLimit, h, hw, hd]⟩)

/-- Everything a `Step` can do (R47): refused unloaded, without effect halted, else the cycle. -/
theorem runCycle_cases (a b : Bool) (s : State) :
    (s.loaded = false ∧ runCycle a b s = .refused .stepUnloaded) ∨
    (s.loaded = true ∧ s.fault ≠ 0#3 ∧ runCycle a b s = .next s.haltedStep) ∨
    (s.loaded = true ∧ s.fault = 0#3 ∧ runCycle a b s = fetchDecodeExecute (State.timerUpdate a b s)) := by
  cases hl : s.loaded with
  | false => exact .inl ⟨rfl, by simp [runCycle, hl]⟩
  | true =>
    by_cases hf : s.fault = 0#3
    · exact .inr (.inr ⟨rfl, hf, by simp [runCycle, hl, hf]⟩)
    · exact .inr (.inl ⟨rfl, hf, by simp [runCycle, hl, hf]⟩)

/-- A step of a running core with an instruction at `PC`: exactly that instruction, on the state the fetch stage left. -/
theorem runCycle_of_instr {a b : Bool} {s : State} {i : Instr} (hl : s.loaded = true) (hf : s.fault = 0#3)
    (hpc : s.pc.toNat < 4094) (hd : decodeWord (BitVec.ofNat 16 s.wordAtPc) = .instr i) :
    runCycle a b s = exec i ((State.timerUpdate a b s).fetched (BitVec.ofNat 16 s.wordAtPc)) := by
  have hw := State.readWord_atPc hpc
  simp only [runCycle, hl, hf, fetchDecodeExecute, State.timerUpdate_pc, State.timerUpdate_mem, Config.fetchLimit, hw, hd]
  simp [show ¬ 4094 ≤ s.pc.toNat by omega]

/-- A run that makes one more step, for any machine behind the host's interface. -/
theorem run_succ_of_next (M : Host.Core) {k : Nat} {s t : M.State} (h : M.step s = .next t) :
    Host.Core.run M (k + 1) s = Host.Core.run M k t := by
  simp [Host.Core.run, h]

/-- A run that ends in a next state goes on by one more step at its end. -/
theorem run_then_step (M : Host.Core) {k : Nat} {s t u : M.State} (h : M.run k s = .next t) (hu : M.step t = .next u) :
    M.run (k + 1) s = .next u := by
  induction k generalizing s with
  | zero => cases h; simp [Host.Core.run, hu]
  | succ k ih =>
    simp only [Host.Core.run] at h
    cases hs : M.step s with
    | next s' => rw [hs] at h; rw [run_succ_of_next M hs]; exact ih h
    | fault f => rw [hs] at h; cases h
    | refused f => rw [hs] at h; cases h

/-- A run of the core that makes one more step. -/
theorem core_run_succ {k : Nat} {s t : State} (h : step s = .next t) :
    Host.Core.run Sys2Proof.core (k + 1) s = Host.Core.run Sys2Proof.core k t :=
  run_succ_of_next Sys2Proof.core h

end Sys2Proof.Machine
end

