-- ==== Sys2Proof/Laws/Transactions.lean ====
section
/-!
SUPPORT. What the host's transactions can do, said once (spec/00_scope.md R6, spec/70_reset_and_hazards.md R120 to R124),
and the terms of Safety.lean read out. A proof about a loaded state does well to name `Memory.withImage m bytes` by a
variable (`generalize`) before it compares states: unfolding it walks the whole font.
-/

namespace Sys2Proof.Machine

/-! ## The image (R122) -/

/-- The font's 16 glyphs of 5 bytes (R37). -/
theorem length_font : Config.font.length = 80 := by decide

/-- Outside the image and the font a load changes no byte. -/
theorem Memory.read_withImage_outside (m : Memory) (bs : List Byte) (a : Nat)
    (h1 : a < 0x200 ∨ 0x200 + bs.length ≤ a) (h2 : a < 0x50 ∨ 0xA0 ≤ a) :
    Memory.read (Memory.withImage m bs) a = Memory.read m a := by
  rw [Memory.withImage, Memory.read_writeBytes_outside, Memory.read_writeBytes_outside]
  · exact h1
  · rw [length_font]; exact h2

/-- A load keeps the canonical form. -/
theorem Memory.wf_withImage {m : Memory} {bs : List Byte} (hm : Memory.wf m = true) (h : bs.length ≤ 0xE00) :
    Memory.wf (Memory.withImage m bs) = true :=
  Memory.wf_writeBytes (Memory.wf_writeBytes hm (by simp [Config.progBase]; omega))
    (by rw [length_font]; decide)

/-- The font after a load (R37). -/
theorem Memory.read_withImage_font {m : Memory} {bs : List Byte} (hm : Memory.wf m = true) (h : bs.length ≤ 0xE00)
    (j : Nat) (hj : j < Config.font.length) : Memory.read (Memory.withImage m bs) (0x50 + j) = Config.font[j] := by
  have hw := Memory.wf_writeBytes hm (a := Config.progBase) (bs := bs) (by simp [Config.progBase]; omega)
  exact Memory.read_writeBytes_inside hw (a := 0x50) (bs := Config.font) (by rw [length_font]; decide) hj

/-- The program after a load. -/
theorem Memory.read_withImage_program {m : Memory} {bs : List Byte} (hm : Memory.wf m = true)
    (h : bs.length ≤ 0xE00) (j : Nat) (hj : j < bs.length) :
    Memory.read (Memory.withImage m bs) (0x200 + j) = bs[j] := by
  rw [Memory.withImage, Memory.read_writeBytes_outside]
  · exact Memory.read_writeBytes_inside hm (a := 0x200) (bs := bs) (by omega) hj
  · rw [length_font]; simp [Config.fontBase]; omega

/-! ## Transactions (R6) -/

/-- Everything `Load` can do (R122, R124). -/
theorem load_cases (bs : List Byte) (s : State) :
    (s.loaded = true ∧ load bs s = .refused .loadWhenLoaded) ∨
    (s.loaded = false ∧ 0xE00 < bs.length ∧ load bs s = .next (.loadError, s)) ∨
    (s.loaded = false ∧ bs.length ≤ 0xE00 ∧
      load bs s = .next (.ok, { s with mem := Memory.withImage s.mem bs, loaded := true })) := by
  cases hl : s.loaded with
  | true => exact .inl ⟨rfl, by simp [load, hl]⟩
  | false =>
    by_cases h : 0xE00 < bs.length
    · exact .inr (.inl ⟨rfl, h, by simp [load, hl, Config.progMax, h]⟩)
    · exact .inr (.inr ⟨rfl, by omega, by simp [load, hl, Config.progMax, h]⟩)

/-- A `Step` transaction is the cycle, and its answer is the report the cycle left. -/
theorem transact_step {a b : Bool} {s t : State} {ans : Answer} (h : transact (.step a b) s = .next (ans, t)) :
    runCycle a b s = .next t ∧ ans = .report t.report := by
  simp only [transact] at h
  cases hr : runCycle a b s <;> rw [hr] at h <;> simp [answerStep] at h
  exact ⟨by rw [h.2], by rw [← h.1, ← h.2]⟩

/-- A `Load` transaction is `load`. -/
theorem transact_load {bs : List Byte} {s t : State} {ans : Answer} (h : transact (.load bs) s = .next (ans, t)) :
    ∃ r, load bs s = .next (r, t) := by
  simp only [transact] at h
  cases hr : load bs s with
  | next p =>
    obtain ⟨r, t'⟩ := p
    rw [hr] at h
    simp [answerLoad] at h
    exact ⟨r, by rw [h.2]⟩
  | fault _ => rw [hr] at h; simp [answerLoad] at h
  | refused _ => rw [hr] at h; simp [answerLoad] at h

/-! ## The terms of Safety.lean -/

/-- A running core is loaded and not halted. -/
theorem State.running_iff {s : State} : s.running = true ↔ s.loaded = true ∧ s.fault = 0#3 := by
  simp [State.running]

/-- The live stack entries one by one. -/
theorem State.liveEntries_iff {s : State} {p : Word → Bool} :
    s.liveEntries p = true ↔ ∀ (j : Nat) (h : j < 16), j < s.sp.val → p s.stk[j] = true := by
  unfold State.liveEntries
  rw [List.all_eq_true]
  constructor
  · intro h j hj hjs
    apply h
    rw [List.mem_take_iff_getElem]
    exact ⟨j, by simp; omega, by simp⟩
  · intro h w hw
    rw [List.mem_take_iff_getElem] at hw
    obtain ⟨j, hj, rfl⟩ := hw
    simp at hj
    have := h j (by omega) hj.1
    simpa using this

end Sys2Proof.Machine
end

