-- ==== Sys2Proof/Tests/Slice0.lean ====
section
/-!
SUPPORT. The model's own tests. Expected results come from spec/95_test_vectors.md and from the encodings of
spec/30_encoding.md R49 and R53, never from the model. Part 1 smokes WellFormed, part 2 decodes a word of every constructor,
part 3 runs single steps, part 4 shows for every statement with hypotheses a state and operands that meet all of them.
-/

namespace Sys2Proof.Tests

open Sys2Proof Sys2Proof.Machine

/-! ## Helpers -/

/-- A memory that lists the given cells. -/
def memoryOf (cells : List Host.Cell) : Memory :=
  cells.foldl (fun m cell => Memory.write m cell.1 cell.2) []

/-- A loaded core right after reset, with the given bytes in memory. -/
def started (cells : List Host.Cell) : State := { State.reset with loaded := true, mem := memoryOf cells }

/-- The two bytes of a word at 0x0200, the more significant first, and further cells. -/
def wordAt0200 (hi lo : Byte) (more : List Host.Cell) : State := started ([(0x200, hi), (0x201, lo)] ++ more)

/-- Registers preset by hypothesis. -/
def preset (s : State) (rs : List (Reg × Byte)) : State := rs.foldl (fun u r => u.setV r.1 r.2) s

/-- Pixels lit by hypothesis. -/
def lit (s : State) (ps : List (Fin 32 × Fin 64)) : State :=
  { s with fb := ps.foldl (fun d p => Display.setPixel d p.1 p.2 true) s.fb }

/-- Whether an outcome is a next state that passes a check. -/
def ends (o : Host.Outcome State Fault Refusal) (check : State → Bool) : Bool :=
  match o with
  | .next t => check t
  | .fault _ | .refused _ => false

/-- What `ends` says. -/
theorem ends_iff (o : Host.Outcome State Fault Refusal) (check : State → Bool) :
    ends o check = true ↔ ∃ t, o = .next t ∧ check t = true := by
  cases o <;> simp [ends]

/-- One `Step` with both timers not due. -/
def quietStep (s : State) : Host.Outcome State Fault Refusal := runCycle false false s

/-- The step ends with this `PC` and the report `(0, 0200, word)`. -/
def okAt (t : State) (pc word : Word) : Bool := t.pc == pc && t.report == some ⟨0, 0x0200, word⟩ && t.fault == 0#3

/-- The two registers of 2.4 of the vectors: V0 and VF. -/
def v0vf (t : State) (a b : Byte) : Bool := t.getV 0 == a && t.getV 15 == b

/-- The pixels of a row of the display that are lit, by column. -/
def litColumns (t : State) (r : Fin 32) : List Nat :=
  (List.finRange 64).filterMap (fun c => if Display.pixel t.fb r c then some c.val else none)

/-! ## 1. WellFormed -/

theorem test_wellFormed_refuses_sys_of_cls : Instr.wellFormed (.sys 0x0E0) = false := by decide
theorem test_wellFormed_refuses_sys_of_ret : Instr.wellFormed (.sys 0x0EE) = false := by decide
theorem test_wellFormed_accepts : Instr.wellFormed (.sys 0x0E1) = true ∧ Instr.wellFormed (.drw 15 15 15) = true := by
  decide

/-! ## 2. Decode: 95_test_vectors 2.1, a word of every constructor -/

theorem test_decode_fixed_and_sys :
    decodeWord 0x00E0 = .instr .cls ∧ decodeWord 0x00EE = .instr .ret ∧ decodeWord 0x0000 = .instr (.sys 0x000) ∧
    decodeWord 0x00EF = .instr (.sys 0x0EF) ∧ decodeWord 0x0FFF = .instr (.sys 0xFFF) := by decide

theorem test_decode_jump_call_index :
    decodeWord 0x1ABC = .instr (.jp 0xABC) ∧ decodeWord 0x2200 = .instr (.call 0x200) ∧
    decodeWord 0xA123 = .instr (.ldINnn 0x123) := by decide

theorem test_decode_immediate :
    decodeWord 0x3A7F = .instr (.seVxKk 0xA 0x7F) ∧ decodeWord 0x4F00 = .instr (.sneVxKk 0xF 0x00) ∧
    decodeWord 0x6C12 = .instr (.ldVxKk 0xC 0x12) ∧ decodeWord 0x7DFF = .instr (.addVxKk 0xD 0xFF) := by decide

theorem test_decode_register_pair :
    decodeWord 0x5AB0 = .instr (.seVxVy 0xA 0xB) ∧ decodeWord 0x8120 = .instr (.ldVxVy 1 2) ∧
    decodeWord 0x8121 = .instr (.or 1 2) ∧ decodeWord 0x8122 = .instr (.and 1 2) ∧
    decodeWord 0x8123 = .instr (.xor 1 2) ∧ decodeWord 0x8124 = .instr (.addVxVy 1 2) := by decide

theorem test_decode_register_pair_flags :
    decodeWord 0x8125 = .instr (.sub 1 2) ∧ decodeWord 0x8126 = .instr (.shr 1 2) ∧
    decodeWord 0x8127 = .instr (.subn 1 2) ∧ decodeWord 0x812E = .instr (.shl 1 2) := by decide

theorem test_decode_draw : decodeWord 0xD015 = .instr (.drw 0 1 5) ∧ decodeWord 0xD000 = .instr (.drw 0 0 0) := by decide

theorem test_decode_unknown :
    decodeWord 0x5AB1 = .unknown .word5xyN ∧ decodeWord 0x5ABF = .unknown .word5xyN ∧
    decodeWord 0x8128 = .unknown .word8xyN ∧ decodeWord 0x812D = .unknown .word8xyN ∧
    decodeWord 0x812F = .unknown .word8xyN ∧ decodeWord 0x9AB0 = .unknown .word9xxx ∧
    decodeWord 0xB000 = .unknown .wordBxxx ∧ decodeWord 0xC0FF = .unknown .wordCxxx ∧
    decodeWord 0xE09E = .unknown .wordExxx ∧ decodeWord 0xF065 = .unknown .wordFxxx ∧
    decodeWord 0xFFFF = .unknown .wordFxxx := by decide

/-- Big-endian (R32): bytes A0 then 50 form the word A050; and the table's bits are the word's (entry 27). -/
theorem test_bytes_big_endian :
    decodeBytes [0xA0, 0x50] = (.instr (.ldINnn 0x050), []) ∧ encodeBytes (.ldINnn 0x050) = [0xA0, 0x50] ∧
    decodeTableWord 16 0xA050 = some (.ldINnn 0x050) ∧ decodeTableWord 16 0xF00A = none := by decide

/-! ## 3. Single steps -/

/-- 95 2.2: 0123. -/
theorem test_sys : ends (quietStep (wordAt0200 0x01 0x23 [])) (fun t => okAt t 0x0202 0x0123) = true := by decide

/-- 95 2.2: 1204, and 1001 with its odd target. -/
theorem test_jp : ends (quietStep (wordAt0200 0x12 0x04 [])) (fun t => okAt t 0x0204 0x1204) = true ∧
    ends (quietStep (wordAt0200 0x10 0x01 [])) (fun t => okAt t 0x0001 0x1001) = true := by decide

/-- 95 2.2: 2210 with SP = 15. -/
theorem test_call_last_slot : ends (quietStep { wordAt0200 0x22 0x10 [] with sp := 15 }) (fun t =>
    okAt t 0x0210 0x2210 && t.sp == 16 && t.stk[15] == 0x0202#16 && t.stk[14] == 0x0000#16) = true := by decide

/-- 95 2.2: 2210 with SP = 16. -/
theorem test_call_overflow : ends (quietStep { wordAt0200 0x22 0x10 [] with sp := 16 }) (fun t =>
    t.pc == 0x0202#16 && t.report == some ⟨2, 0x0200, 0x2210⟩ && t.fault == 2#3 && t.sp == 16) = true := by decide

/-- 95 2.2: 00EE with SP = 1, STK[0] = 0206; the slot keeps its bits. -/
theorem test_ret : ends (quietStep { wordAt0200 0x00 0xEE [] with sp := 1, stk := State.reset.stk.set 0 0x0206 }) (fun t =>
    okAt t 0x0206 0x00EE && t.sp == 0 && t.stk[0] == 0x0206#16) = true := by decide

/-- 95 2.2: 00EE with SP = 0. -/
theorem test_ret_underflow : ends (quietStep (wordAt0200 0x00 0xEE [])) (fun t =>
    t.pc == 0x0202#16 && t.report == some ⟨3, 0x0200, 0x00EE⟩ && t.fault == 3#3 && t.sp == 0) = true := by decide

/-- 95 2.2: 3100 with V1 = 00 and 04; 3F01 with VF = 01. -/
theorem test_se_immediate : ends (quietStep (wordAt0200 0x31 0x00 [])) (fun t => okAt t 0x0204 0x3100) = true ∧
    ends (quietStep (preset (wordAt0200 0x31 0x00 []) [(1, 0x04)])) (fun t => okAt t 0x0202 0x3100) = true ∧
    ends (quietStep (preset (wordAt0200 0x3F 0x01 []) [(15, 0x01)])) (fun t => okAt t 0x0204 0x3F01) = true := by decide

/-- 95 2.2: 4207 and 4208 with V2 = 07. -/
theorem test_sne_immediate :
    ends (quietStep (preset (wordAt0200 0x42 0x07 []) [(2, 0x07)])) (fun t => okAt t 0x0202 0x4207) = true ∧
    ends (quietStep (preset (wordAt0200 0x42 0x08 []) [(2, 0x07)])) (fun t => okAt t 0x0204 0x4208) = true := by decide

/-- 95 2.2: 5340 with V3, V4 equal and not. -/
theorem test_se_registers :
    ends (quietStep (preset (wordAt0200 0x53 0x40 []) [(3, 0x10), (4, 0x10)])) (fun t => okAt t 0x0204 0x5340) = true ∧
    ends (quietStep (preset (wordAt0200 0x53 0x40 []) [(3, 0x10), (4, 0x11)])) (fun t => okAt t 0x0202 0x5340) = true := by
  decide

/-- 95 2.3: 6A07 over VA = 99; 6F55. -/
theorem test_ld_immediate :
    ends (quietStep (preset (wordAt0200 0x6A 0x07 []) [(10, 0x99)])) (fun t =>
      okAt t 0x0202 0x6A07 && t.getV 10 == 0x07#8 && t.getV 15 == 0x00#8) = true ∧
    ends (quietStep (preset (wordAt0200 0x6F 0x55 []) [(15, 0x01)])) (fun t => t.getV 15 == 0x55#8) = true := by decide

/-- 95 2.3: 70FF with V0 = 05, VF = 55; 7F02 with VF = FF. -/
theorem test_add_immediate :
    ends (quietStep (preset (wordAt0200 0x70 0xFF []) [(0, 0x05), (15, 0x55)])) (fun t => v0vf t 0x04 0x55) = true ∧
    ends (quietStep (preset (wordAt0200 0x7F 0x02 []) [(15, 0xFF)])) (fun t => t.getV 15 == 0x01#8) = true := by decide

/-- 95 2.4: 8010 with 12, 34 and VF = 77. -/
theorem test_ld_register : ends (quietStep (preset (wordAt0200 0x80 0x10 []) [(0, 0x12), (1, 0x34), (15, 0x77)])) (fun t =>
    v0vf t 0x34 0x77 && t.getV 1 == 0x34#8) = true := by decide

/-- 95 2.4: 8011, 8012, 8013 with F0, 3C. -/
theorem test_or : ends (quietStep (preset (wordAt0200 0x80 0x11 []) [(0, 0xF0), (1, 0x3C), (15, 0x77)])) (fun t =>
    v0vf t 0xFC 0x77) = true := by decide
theorem test_and : ends (quietStep (preset (wordAt0200 0x80 0x12 []) [(0, 0xF0), (1, 0x3C), (15, 0x77)])) (fun t =>
    v0vf t 0x30 0x77) = true := by decide
theorem test_xor : ends (quietStep (preset (wordAt0200 0x80 0x13 []) [(0, 0xF0), (1, 0x3C), (15, 0x77)])) (fun t =>
    v0vf t 0xCC 0x77) = true := by decide

/-- 95 2.4 and S2: 8014 with FF, 01 and 7F, 80. -/
theorem test_add :
    ends (quietStep (preset (wordAt0200 0x80 0x14 []) [(0, 0xFF), (1, 0x01)])) (fun t => v0vf t 0x00 0x01) = true ∧
    ends (quietStep (preset (wordAt0200 0x80 0x14 []) [(0, 0x7F), (1, 0x80), (15, 0x77)])) (fun t =>
      v0vf t 0xFF 0x00) = true := by decide

/-- 95 2.5: 8F14 with V1 = 80, VF = 90; 80F4 with V0 = FF, VF = 02. -/
theorem test_add_vf_operand :
    ends (quietStep (preset (wordAt0200 0x8F 0x14 []) [(1, 0x80), (15, 0x90)])) (fun t => t.getV 15 == 0x10#8) = true ∧
    ends (quietStep (preset (wordAt0200 0x80 0xF4 []) [(0, 0xFF), (15, 0x02)])) (fun t => v0vf t 0x01 0x01) = true := by decide

/-- 95 2.4 and S3: 8015 with 03, 05 and 00, 00. -/
theorem test_sub :
    ends (quietStep (preset (wordAt0200 0x80 0x15 []) [(0, 0x03), (1, 0x05), (15, 0x77)])) (fun t =>
      v0vf t 0xFE 0x00) = true ∧
    ends (quietStep (wordAt0200 0x80 0x15 [])) (fun t => v0vf t 0x00 0x01) = true := by decide

/-- 95 2.5: 80F5 with V0 = 05, VF = 03; 8F15 with V1 = 05, VF = 03. -/
theorem test_sub_vf_operand :
    ends (quietStep (preset (wordAt0200 0x80 0xF5 []) [(0, 0x05), (15, 0x03)])) (fun t => v0vf t 0x02 0x01) = true ∧
    ends (quietStep (preset (wordAt0200 0x8F 0x15 []) [(1, 0x05), (15, 0x03)])) (fun t => t.getV 15 == 0xFE#8) = true := by
  decide

/-- 95 2.4: 8016 with 03 and 80; 95 2.5: 8F06 with VF = 02. -/
theorem test_shr :
    ends (quietStep (preset (wordAt0200 0x80 0x16 []) [(0, 0x03), (1, 0xFF)])) (fun t => v0vf t 0x01 0x01) = true ∧
    ends (quietStep (preset (wordAt0200 0x80 0x16 []) [(0, 0x80), (15, 0x77)])) (fun t => v0vf t 0x40 0x00) = true := by decide
theorem test_shr_vf : ends (quietStep (preset (wordAt0200 0x8F 0x06 []) [(15, 0x02)])) (fun t =>
    t.getV 15 == 0x01#8) = true := by decide

/-- 95 2.4: 8017 with 03, 02 and 00, FF; 95 2.5: 80F7 with V0 = 03, VF = 05. -/
theorem test_subn :
    ends (quietStep (preset (wordAt0200 0x80 0x17 []) [(0, 0x03), (1, 0x02), (15, 0x77)])) (fun t =>
      v0vf t 0xFF 0x00) = true ∧
    ends (quietStep (preset (wordAt0200 0x80 0x17 []) [(1, 0xFF)])) (fun t => v0vf t 0xFF 0x01) = true := by decide
theorem test_subn_vf_operand : ends (quietStep (preset (wordAt0200 0x80 0xF7 []) [(0, 0x03), (15, 0x05)])) (fun t =>
    v0vf t 0x02 0x01) = true := by decide

/-- 95 2.4: 801E with FF and 7F; 95 2.5: 8F0E with VF = 81. -/
theorem test_shl :
    ends (quietStep (preset (wordAt0200 0x80 0x1E []) [(0, 0xFF)])) (fun t => v0vf t 0xFE 0x01) = true ∧
    ends (quietStep (preset (wordAt0200 0x80 0x1E []) [(0, 0x7F), (15, 0x77)])) (fun t => v0vf t 0xFE 0x00) = true := by decide
theorem test_shl_vf : ends (quietStep (preset (wordAt0200 0x8F 0x0E []) [(15, 0x81)])) (fun t =>
    t.getV 15 == 0x02#8) = true := by decide

/-- 95 2.6: AFFF. -/
theorem test_ld_index : ends (quietStep { wordAt0200 0xAF 0xFF [] with i := 0xF123 }) (fun t =>
    okAt t 0x0202 0xAFFF && t.i == 0x0FFF#16) = true := by decide

/-- 95 2.6: 00E0 with (0,0), (31,63), (15,32) lit and VF = 01. -/
theorem test_cls : ends (quietStep (preset (lit (wordAt0200 0x00 0xE0 []) [(0, 0), (31, 63), (15, 32)]) [(15, 0x01)]))
    (fun t => okAt t 0x0202 0x00E0 && litColumns t 0 == [] && litColumns t 15 == [] && litColumns t 31 == [] &&
      t.getV 15 == 0x01#8) = true := by decide

/-- 95 2.6, DV2: bit order and column wrap. -/
theorem test_drw_wraps : ends (quietStep (preset { wordAt0200 0xD0 0x11 [(0x300, 0x81)] with i := 0x0300 }
    [(0, 0x3C), (15, 0x77)])) (fun t => okAt t 0x0202 0xD011 && litColumns t 0 == [3, 60] && litColumns t 1 == [] &&
      t.getV 15 == 0x00#8) = true := by decide

/-- 95 2.6, DV5 and DV17: the collision, and the bound. -/
theorem test_drw_collides_or_faults :
    ends (quietStep (lit { wordAt0200 0xD0 0x11 [(0x300, 0xC0)] with i := 0x0300 } [(0, 0)])) (fun t =>
      litColumns t 0 == [1] && t.getV 15 == 0x01#8) = true ∧
    ends (quietStep { wordAt0200 0xD0 0x12 [] with i := 0x0FFF }) (fun t =>
      t.report == some ⟨6, 0x0200, 0xD012⟩ && t.fault == 6#3 && t.pc == 0x0202#16 && litColumns t 0 == []) = true := by decide

/-- 95 2.7: the odd fetch at 0FFD, and the fetch fault at 0FFE. -/
theorem test_fetch_bound :
    ends (quietStep { started [(0xFFD, 0x6B), (0xFFE, 0x2A)] with pc := 0x0FFD }) (fun t =>
      t.getV 11 == 0x2A#8 && t.pc == 0x0FFF#16 && t.report == some ⟨0, 0x0FFD, 0x6B2A⟩) = true ∧
    ends (quietStep { started [] with pc := 0x0FFE }) (fun t =>
      t.pc == 0x0FFE#16 && t.fault == 4#3 && t.report == some ⟨4, 0x0FFE, 0x0000⟩) = true := by decide

/-- 95 2.7: F00A, and the halted step. -/
theorem test_unknown_and_halted :
    ends (quietStep (wordAt0200 0xF0 0x0A [])) (fun t =>
      t == { wordAt0200 0xF0 0x0A [] with pc := 0x0202, report := some ⟨5, 0x0200, 0xF00A⟩, draws := 1 }) = true ∧
    ends (runCycle true true { started [] with fault := 6, dt := 0x05 }) (fun t =>
      t == { started [] with fault := 6, dt := 0x05, report := some ⟨6, 0x0000, 0x0000⟩ }) = true := by decide

/-- R110: each timer on its own input, and a timer at 0 stays. -/
theorem test_timers : ends (runCycle true false { started [] with dt := 0x05, st := 0x09 }) (fun t =>
      t.dt == 0x04#8 && t.st == 0x09#8) = true ∧
    ends (runCycle true true { started [] with st := 0x01 }) (fun t => t.dt == 0x00#8 && t.st == 0x00#8) = true := by decide

/-- R120, R124: a `Step` and a `Load` where they are not defined are refused. -/
theorem test_lifecycle_refusals : step State.reset = .refused .stepUnloaded ∧
    load [0x12] (started []) = .refused .loadWhenLoaded := ⟨rfl, rfl⟩

/-- A word placed for the next fetch stands at 0x0200 after reset, big-endian (entry 16). -/
theorem test_withFetchWord : State.reset.withFetchWord 16 0xA050 =
    { State.reset with mem := [(0x200, 0xA0), (0x201, 0x50)], loaded := true } := by decide

/-! ## 4. Hypotheses met: for each statement with hypotheses, a state and operands that meet them together -/

/-- DecodeOfEncodeIsTheInstruction. -/
theorem test_witness_wellFormed : Instr.wellFormed .cls = true ∧ Instr.wellFormed (.sys 0xFFF) = true := by decide

/-- EncodeOfDecodeIsTheWord and OperandFieldsStandAtTheirBits: a word of each format. -/
theorem test_witness_decodes : decodeWord 0x00EE = .instr .ret ∧ decodeWord 0x1FFF = .instr (.jp 0xFFF) ∧
    decodeWord 0x7F80 = .instr (.addVxKk 15 0x80) ∧ decodeWord 0x8F06 = .instr (.shr 15 0) ∧
    decodeWord 0xDF1F = .instr (.drw 15 1 15) := by decide

/-- IgnoredFieldsChangeNothing and SysIsANoOp: the ends of the range, and beside the two fixed words. -/
theorem test_witness_sys_words :
    ([0x0000, 0x00DF, 0x00E1, 0x00ED, 0x00EF, 0x0FFF] : List Word).all (fun op =>
      decide (op.toNat ≤ 0x0FFF ∧ op.toNat / 4096 = 0 ∧ op.toNat ≠ 0x00E0 ∧ op.toNat ≠ 0x00EE)) = true := by decide

/-- StepRunsTheDecodedInstruction: at 0x0200, and at 4093, the last `PC` that fetches. -/
theorem test_witness_step_runs :
    (wordAt0200 0x6A 0x07 []).running = true ∧ (wordAt0200 0x6A 0x07 []).pc.toNat < 4094 ∧
    decodeWord (BitVec.ofNat 16 (wordAt0200 0x6A 0x07 []).wordAtPc) = .instr (.ldVxKk 10 0x07) ∧
    (({ started [(4093, 0x6B), (4094, 0x2A)] with pc := 4093 } : State).running = true ∧
      decodeWord (BitVec.ofNat 16 ({ started [(4093, 0x6B), (4094, 0x2A)] with pc := 4093 } : State).wordAtPc) =
        .instr (.ldVxKk 11 0x2A)) := by decide

/-- UnknownOpcodeIsReportedAndSkipped. -/
theorem test_witness_unknown :
    (wordAt0200 0xF0 0x0A []).running = true ∧ (wordAt0200 0xF0 0x0A []).pc.toNat < 4094 ∧
    decodeWord (BitVec.ofNat 16 (wordAt0200 0xF0 0x0A []).wordAtPc) = .unknown .wordFxxx := by decide

/-- FetchAtOrAboveTheLimitFaults: at 4094 and at 0x1001. -/
theorem test_witness_fetch_limit :
    ({ started [] with pc := 4094 } : State).running = true ∧ 4094 ≤ ({ started [] with pc := 4094 } : State).pc.toNat ∧
    ({ started [] with pc := 0x1001 } : State).running = true ∧
    4094 ≤ ({ started [] with pc := 0x1001 } : State).pc.toNat := by decide

/-- HaltedCoreStaysHalted. -/
theorem test_witness_halted : ({ started [] with fault := 4 } : State).loaded = true ∧
    ({ started [] with fault := 4 } : State).fault ≠ 0 := by decide

/-- StepAnswersExactlyWhenLoaded: both clauses. -/
theorem test_witness_loaded_or_not : State.reset.loaded = false ∧ (started []).loaded = true := by decide

/-- EveryStepReportsItsCause, TimersCountDownOncePerStep and PcAfterAStep: a running core steps to a next state with each
of the codes 0, 2, 3, 4, 5 and 6; FatalFaultsArePrecise: for 2, 3, 4 and 6 the state is faulted. -/
theorem test_witness_reports_of_control :
    (started []).running = true ∧ ends (quietStep (started [])) (fun t => t.fault == 0#3) = true ∧
    ({ wordAt0200 0x22 0x10 [] with sp := 16 } : State).running = true ∧
    ends (quietStep { wordAt0200 0x22 0x10 [] with sp := 16 }) (fun t => t.fault == 2#3) = true ∧
    (wordAt0200 0x00 0xEE []).running = true ∧
    ends (quietStep (wordAt0200 0x00 0xEE [])) (fun t => t.fault == 3#3) = true := by decide
theorem test_witness_reports_of_fetch_and_draw :
    ({ started [] with pc := 4095 } : State).running = true ∧
    ends (quietStep { started [] with pc := 4095 }) (fun t => t.fault == 4#3) = true ∧
    (wordAt0200 0x9A 0xB0 []).running = true ∧
    ends (quietStep (wordAt0200 0x9A 0xB0 [])) (fun t => t.report == some ⟨5, 0x0200, 0x9AB0⟩) = true ∧
    ({ wordAt0200 0xD0 0x12 [] with i := 0x0FFF } : State).running = true ∧
    ends (quietStep { wordAt0200 0xD0 0x12 [] with i := 0x0FFF }) (fun t => t.fault == 6#3) = true := by decide

/-- TimersCountDownOncePerStep: due at 1, due at 0 and not due. -/
theorem test_witness_timer_steps :
    ({ started [] with dt := 1 } : State).running = true ∧
    ends (runCycle true true { started [] with dt := 1 }) (fun t => t.dt == 0#8 && t.st == 0#8) = true ∧
    ends (runCycle false false { started [] with dt := 1 }) (fun t => t.dt == 1#8) = true := by decide

/-- JumpLoadsPc, SkipOnImmediate, SkipOnEqualRegisters, LoadImmediateSetsVx, AddImmediateWrapsWithoutFlag and LoadIndexSetsI:
a word of each of their families; SkipOnEqualRegisters also a word 5xyN with N not 0. -/
theorem test_witness_family_words :
    (0x1FFF : Word).toNat / 4096 = 0x1 ∧ (0x3100 : Word).toNat / 4096 = 0x3 ∧ (0x4F00 : Word).toNat / 4096 = 0x4 ∧
    ((0x5AB0 : Word).toNat / 4096 = 0x5 ∧ (0x5AB0 : Word).toNat % 16 = 0) ∧
    ((0x5AB1 : Word).toNat / 4096 = 0x5 ∧ (0x5AB1 : Word).toNat % 16 ≠ 0) ∧
    (0x6FFF : Word).toNat / 4096 = 0x6 ∧ (0x7FFF : Word).toNat / 4096 = 0x7 ∧ (0xAFFF : Word).toNat / 4096 = 0xA := by decide

/-- ReturnPopsIntoPc (1 and 16 entries) and ReturnOnEmptyStackFaults. -/
theorem test_witness_return : 0 < ({ started [] with sp := 1 } : State).sp.val ∧
    0 < ({ started [] with sp := 16 } : State).sp.val ∧ (started []).sp = 0 := by decide

/-- CallPushesTheAdvancedPc and ReturnResumesAfterTheCall (0 and 15 entries), and CallOnFullStackFaults. -/
theorem test_witness_call : (started []).sp.val < 16 ∧ ({ started [] with sp := 15 } : State).sp.val < 16 ∧
    ({ started [] with sp := 16 } : State).sp = 16 := by decide

/-- AddWritesCarry and the other four flag writers: `x` = 15 and `x` not 15, and a register that is neither. -/
theorem test_witness_flag_operands : (0 : Reg) ≠ 15 ∧ (14 : Reg) ≠ 15 ∧ (1 : Reg) ≠ 0 ∧ (1 : Reg) ≠ 15 := by decide

/-- DrawXorsTheSpriteOntoTheDisplay (the last byte of memory) and DrawPastTheEndOfMemoryFaults (one past it). -/
theorem test_witness_draw_bound :
    ({ started [] with i := 0x0FFF } : State).i.toNat + (1 : Nibble).toNat ≤ 4096 ∧
    4096 < ({ started [] with i := 0x0FFF } : State).i.toNat + (2 : Nibble).toNat := by decide

/-- DrawXorsTheSpriteOntoTheDisplay: both values of VF (DV5 and DV1). -/
theorem test_witness_draw_flags :
    ends (exec (.drw 0 1 1) (lit { started [(0x300, 0xC0)] with i := 0x0300 } [(0, 0)])) (fun t =>
      t.getV 15 == 0x01#8) = true ∧
    ends (exec (.drw 0 1 1) { started [(0x300, 0xC0)] with i := 0x0300 }) (fun t => t.getV 15 == 0x00#8) = true := by decide

/-- DrawingTwiceRestoresTheDisplay and SecondDrawAlwaysReportsACollision: one row of 0xC0 on a clear display. -/
theorem test_witness_second_draw :
    ({ started [(0x300, 0xC0)] with i := 0x0300 } : State).i.toNat + (1 : Nibble).toNat ≤ 4096 ∧
    Memory.read (started [(0x300, 0xC0)]).mem (0x0300 + 0) ≠ 0x00 ∧
    ends (exec (.drw 0 1 1) { started [(0x300, 0xC0)] with i := 0x0300 }) (fun t =>
      ends (exec (.drw 0 1 1) t) (fun u => litColumns u 0 == [] && u.getV 15 == 0x01#8)) = true := by decide

/-- Why SecondDrawAlwaysReportsACollision is expected to fail: pixel (0,0) lit, one row of 0x80 drawn on it twice. -/
theorem test_second_draw_without_collision :
    ends (exec (.drw 0 1 1) (lit { started [(0x300, 0x80)] with i := 0x0300 } [(0, 0)])) (fun t =>
      t.getV 15 == 0x01#8 && ends (exec (.drw 0 1 1) t) (fun u => litColumns u 0 == [0] && u.getV 15 == 0x00#8)) = true := by
  decide

/-- OnlyAnnnWritesAndOnlyDxynReadsI, InstructionsWriteOnlyTheirRegisters, FlagWritersAndNoOthersWriteVf,
MemoryIsWrittenByLoadAndResetAlone, DisplayChangesByDrawClearAndResetAlone, StackChangesByCallAndReturnAlone and
InstructionsLeaveTimersAndStatusAlone: an instruction outside the exceptions of each runs, with `I` at its upper bound. -/
theorem test_witness_frames :
    ({ started [] with i := 0x0FFF } : State).i.toNat ≤ 0x0FFF ∧
    ends (exec (.ldVxKk 2 0x33) { started [] with i := 0x0FFF }) (fun t => t.getV 2 == 0x33#8 && t.i == 0x0FFF#16) = true ∧
    15 ∉ Sys2Proof.Claims.mayWrite (.ldVxKk 2 0x33) ∧ 2 ∉ Sys2Proof.Claims.mayWrite (.addVxVy 0 1) ∧
    ends (exec (.addVxVy 0 1) (started [])) (fun t => t.getV 15 == 0x00#8) = true := by decide

/-- FlagWritersAndNoOthersWriteVf: each of the other four flag writers runs with `x` = 0. -/
theorem test_witness_flag_writers :
    ends (exec (.sub 0 1) (started [])) (fun t => t.getV 15 == 0x01#8) = true ∧
    ends (exec (.subn 0 1) (started [])) (fun t => t.getV 15 == 0x01#8) = true ∧
    ends (exec (.shr 0 1) (preset (started []) [(0, 0x01)])) (fun t => t.getV 15 == 0x01#8) = true ∧
    ends (exec (.shl 0 1) (preset (started []) [(0, 0x80)])) (fun t => t.getV 15 == 0x01#8) = true := by decide

/-- StackChangesByCallAndReturnAlone: a call and a return run; InstructionsLeaveTimersAndStatusAlone: a call that faults. -/
theorem test_witness_stack :
    ends (exec (.call 0x300) { started [] with sp := 15 }) (fun t => t.sp == 16) = true ∧
    ends (exec (.call 0x300) { started [] with sp := 16 }) (fun t => t.sp == 16 && t.fault == 2#3) = true ∧
    ends (exec .ret { started [] with sp := 16 }) (fun t => t.sp == 15) = true ∧
    ends (exec .ret (started [])) (fun t => t.sp == 0 && t.fault == 3#3) = true := by decide

/-- MemoryIsWrittenByLoadAndResetAlone and DisplayChangesByDrawClearAndResetAlone: each transaction answers; an address
before the font, between font and program, and after the program is outside what a load of one byte writes. -/
theorem test_witness_transactions :
    (∃ t, transact .reset (started []) = .next (.nothing, t)) ∧
    (∃ t, transact (.load [0x12]) State.reset = .next (.load .ok, t)) ∧
    (∃ t, transact .readFrameBuffer State.reset = .next (.frameBuffer Display.clear, t)) ∧
    (∃ t, transact .soundGate State.reset = .next (.level false, t)) ∧
    (∀ a, a ∈ [0x000, 0x04F, 0x0A0, 0x1FF, 0x201, 0xFFF] →
      (a < 0x200 ∨ 0x200 + [(0x12 : Byte)].length ≤ a) ∧ (a < 0x050 ∨ 0x0A0 ≤ a)) :=
  have hl : ∃ t, transact (.load [0x12]) State.reset = .next (.load .ok, t) := by
    rcases load_cases [0x12] State.reset with ⟨h, -⟩ | ⟨-, h, -⟩ | ⟨-, -, e⟩
    · cases h
    · exact absurd h (by decide)
    · exact ⟨_, by rw [transact, e, answerLoad]⟩
  ⟨⟨_, rfl⟩, hl, ⟨_, rfl⟩, ⟨_, rfl⟩, by decide⟩

/-- The same two: a `Step` answers. -/
theorem test_witness_step_transaction : ∃ t, transact (.step true false) (started []) = .next (.report t.report, t) := by
  have h : ends (runCycle true false (started [])) (fun _ => true) = true := by decide
  obtain ⟨t, e, -⟩ := (ends_iff _ _).mp h
  exact ⟨t, by rw [transact, e, answerStep]⟩

/-- FatalFaultsArePrecise and PcAfterAStep: the clauses of `PC`, an instruction, an unknown opcode and a fetch fault. -/
theorem test_witness_pc_after :
    ends (quietStep { started [(0xFFD, 0x30)] with pc := 0x0FFD }) (fun t => t.pc == 0x1001#16) = true ∧
    ends (quietStep (wordAt0200 0xB0 0x00 [])) (fun t => t.pc == 0x0202#16) = true ∧
    ends (quietStep { started [] with pc := 0x1001 }) (fun t => t.pc == 0x1001#16 && t.fault == 4#3) = true := by decide

/-- InvariantsAreKeptByEveryTransaction and MemoryStaysCanonical: a loaded core at the edges of the invariants, a live
return address 0x0FFF among them, and a step of it. -/
theorem test_witness_reachable :
    ({ wordAt0200 0x00 0xEE [] with i := 0x0FFF, sp := 1, stk := State.reset.stk.set 0 0x0FFF } : State).Reachable ∧
    ends (step { wordAt0200 0x00 0xEE [] with i := 0x0FFF, sp := 1, stk := State.reset.stk.set 0 0x0FFF }) (fun t =>
      t.pc == 0x0FFF#16) = true :=
  ⟨⟨by decide, by decide, by decide, by decide, by decide, by decide, by decide⟩, by decide⟩

/-- PcStaysEvenUnderEvenTargets: an even jump, and a live even return address. -/
theorem test_witness_even :
    ({ wordAt0200 0x12 0x04 [] with sp := 1, stk := State.reset.stk.set 0 0x0206 } : State).EvenPc ∧
    (∀ nnn : Addr12, decodeWord (BitVec.ofNat 16 (wordAt0200 0x12 0x04 []).wordAtPc) = .instr (.jp nnn) ∨
      decodeWord (BitVec.ofNat 16 (wordAt0200 0x12 0x04 []).wordAtPc) = .instr (.call nnn) → nnn.toNat % 2 = 0) := by
  have h : decodeWord (BitVec.ofNat 16 (wordAt0200 0x12 0x04 []).wordAtPc) = .instr (.jp 0x204) := by decide
  refine ⟨⟨by decide, by decide⟩, fun nnn hn => ?_⟩
  rw [h] at hn
  rcases hn with hn | hn <;> cases hn
  decide

/-- ParkedCoreStaysParked: a jump to itself at 0x0200, and at 4093, the last place for one. -/
theorem test_witness_parked :
    (wordAt0200 0x12 0x00 []).running = true ∧ (wordAt0200 0x12 0x00 []).parkedAt 0x200 = true ∧
    ({ started [(4093, 0x1F), (4094, 0xFD)] with pc := 4093 } : State).running = true ∧
    ({ started [(4093, 0x1F), (4094, 0xFD)] with pc := 4093 } : State).parkedAt 4093 = true := by decide

/-- ZeroMemoryRunsToTheFetchFault: an empty memory from 0x0200, from the odd 0x0FFD, and from 4094 and 4095 themselves. -/
theorem test_witness_zero_memory :
    (started []).running = true ∧ (started []).pc.toNat ≤ 4095 ∧
    ({ started [] with pc := 0x0FFD } : State).pc.toNat ≤ 4095 ∧ ({ started [] with pc := 4094 } : State).pc.toNat ≤ 4095 ∧
    ({ started [] with pc := 4095 } : State).pc.toNat ≤ 4095 ∧ ∀ a, Memory.read (started []).mem a = 0x00 :=
  ⟨by decide, by decide, by decide, by decide, by decide, fun _ => rfl⟩

/-- R129 at an odd `PC`: the last no-op is fetched at 0x0FFD, and the next fetch, at 0x0FFF, faults. -/
theorem test_zero_memory_odd :
    ends (quietStep { started [] with pc := 0x0FFD }) (fun t =>
      t.pc == 0x0FFF#16 && t.report == some ⟨0, 0x0FFD, 0x0000⟩ && ends (quietStep t) (fun u =>
        u.pc == 0x0FFF#16 && u.fault == 4#3 && u.report == some ⟨4, 0x0FFF, 0x0000⟩)) = true := by decide

/-- StaleStackSlotsAreUnobservable: two states that do differ, in slot 1 with one entry held. -/
theorem test_witness_stale :
    Sys2Proof.Claims.sameButStaleSlots { started [] with sp := 1 }
      { started [] with sp := 1, stk := State.reset.stk.set 1 0xBEEF } ∧
    ({ started [] with sp := 1 } : State) ≠ { started [] with sp := 1, stk := State.reset.stk.set 1 0xBEEF } := by
  refine ⟨⟨rfl, fun j hj hjs => ?_⟩, by decide⟩
  have h0 : j = 0 := by have : j < 1 := hjs; omega
  subst h0
  rfl

/-- TimersAndDueInputsAreUnobservable: two states that do differ, in both timers. -/
theorem test_witness_timers :
    Sys2Proof.Claims.sameButTimers (started []) { started [] with dt := 0x05, st := 0xFF, draws := 7 } ∧
    started [] ≠ { started [] with dt := 0x05, st := 0xFF, draws := 7 } := ⟨rfl, by decide⟩

/-- LoadWritesTheImageAndTheFont and LaunchStateIsAsTheSpecSays: a loaded and an unloaded core, and images of 0xE01, 0xE00
and 0 bytes (S9). -/
theorem test_witness_load :
    Memory.wf State.reset.mem = true ∧ (started []).loaded = true ∧ State.reset.loaded = false ∧
    0xE00 < (List.replicate 0xE01 (0xFF : Byte)).length ∧ (List.replicate 0xE00 (0xFF : Byte)).length ≤ 0xE00 ∧
    ([] : List Byte).length ≤ 0xE00 := by
  refine ⟨rfl, rfl, rfl, ?_, ?_, by decide⟩
  · rw [List.length_replicate]; decide
  · rw [List.length_replicate]

end Sys2Proof.Tests
end

section
/-!
PROOFS. The family of 6xkk and 7xkk (spec/41_register_immediate.md R70, R71): the decoded fields as the naturals of R46, the
decoder on the two families, the write of one general register with its frame, and the two obligations O24 and O25.
-/

namespace Sys2Proof

/-! ## Decoding (R46, R48) -/

theorem opX_eq_ofNat (op : Word) : opX op = Fin.ofNat 16 (op.toNat / 256) :=
  Fin.ext (opX_val op)

theorem opKk_eq_ofNat (op : Word) : opKk op = BitVec.ofNat 8 op.toNat :=
  BitVec.eq_of_toNat_eq (by rw [opKk_toNat, BitVec.toNat_ofNat])

/-- The family field of a word, from its most significant nibble as a natural number. -/
theorem opFamily_eq_of_div {op : Word} {f : Nibble} (h : op.toNat / 4096 = f.toNat) : opFamily op = f :=
  BitVec.eq_of_toNat_eq ((opFamily_toNat op).trans h)

theorem decodeWord_family6 {op : Word} (h : opFamily op = 0x6#4) :
    decodeWord op = .instr (.ldVxKk (opX op) (opKk op)) := by
  rw [decodeWord_of_family (by rw [h]; decide), decodeByFamily, h]
  rfl

theorem decodeWord_family7 {op : Word} (h : opFamily op = 0x7#4) :
    decodeWord op = .instr (.addVxKk (opX op) (opKk op)) := by
  rw [decodeWord_of_family (by rw [h]; decide), decodeByFamily, h]
  rfl

end Sys2Proof

namespace Sys2Proof.Machine

/-! ## Executing (R70, R71) -/

theorem exec_ldVxKk (x : Reg) (kk : Byte) (s : State) : exec (.ldVxKk x kk) s = .next (s.setV x kk) := rfl

theorem exec_addVxKk (x : Reg) (kk : Byte) (s : State) :
    exec (.addVxKk x kk) s = .next (s.setV x (addNoFlag (s.getV x) kk)) := rfl

/-- A register write changes the register file only. -/
theorem State.setV_frame (s : State) (x : Reg) (b : Byte) : s.setV x b = { s with v := (s.setV x b).v } := rfl

/-- A register write leaves every register but its target, and everything outside the register file. -/
theorem State.setV_leaves_rest (s : State) (x : Reg) (b : Byte) :
    (∀ r, r ≠ x → (s.setV x b).getV r = s.getV r) ∧ s.setV x b = { s with v := (s.setV x b).v } :=
  ⟨fun _ hr => s.getV_setV_other b hr, s.setV_frame x b⟩

theorem addNoFlag_toNat (a b : Byte) : (addNoFlag a b).toNat = (a.toNat + b.toNat) % 256 :=
  BitVec.toNat_add a b

/-! ## The obligations -/

/-- Settles O24: the decoder's line of family 6, and one register write of the immediate (R70). -/
theorem loadImmediateSetsVx : Obligations.LoadImmediateSetsVx := by
  unfold Obligations.LoadImmediateSetsVx
  constructor
  · intro op hop
    rw [decodeWord_family6 (opFamily_eq_of_div hop), opX_eq_ofNat, opKk_eq_ofNat]
  · intro x kk s
    exact ⟨s.setV x kk, exec_ldVxKk x kk s, s.getV_setV_same x kk, s.setV_leaves_rest x kk⟩

/-- Settles O25: the decoder's line of family 7, and one register write of the sum modulo 256, with no write of VF as a
flag (R71). -/
theorem addImmediateWrapsWithoutFlag : Obligations.AddImmediateWrapsWithoutFlag := by
  unfold Obligations.AddImmediateWrapsWithoutFlag
  constructor
  · intro op hop
    rw [decodeWord_family7 (opFamily_eq_of_div hop), opX_eq_ofNat, opKk_eq_ofNat]
  · intro x kk s
    refine ⟨s.setV x (addNoFlag (s.getV x) kk), exec_addVxKk x kk s, ?_, s.setV_leaves_rest x _⟩
    rw [State.getV_setV_same, addNoFlag_toNat]

end Sys2Proof.Machine
end

section
/-!
PROOFS. The family of 8xy0 to 8xy3 (spec/42_alu.md R76 to R79): each instruction as one register write with no flag, and the
two obligations O26 and O27.
-/

namespace Sys2Proof.Machine

/-! ## Executing (R76 to R79) -/

theorem exec_ldVxVy (x y : Reg) (s : State) : exec (.ldVxVy x y) s = .next (s.setV x (s.getV y)) := rfl

theorem exec_or (x y : Reg) (s : State) : exec (.or x y) s = .next (s.setV x (s.getV x ||| s.getV y)) := rfl

theorem exec_and (x y : Reg) (s : State) : exec (.and x y) s = .next (s.setV x (s.getV x &&& s.getV y)) := rfl

theorem exec_xor (x y : Reg) (s : State) : exec (.xor x y) s = .next (s.setV x (s.getV x ^^^ s.getV y)) := rfl

/-! ## The obligations -/

/-- Settles O26: one register write of `V[y]`, with no write of VF as a flag (R76). -/
theorem copyRegister : Obligations.CopyRegister := by
  unfold Obligations.CopyRegister
  intro x y s
  exact ⟨s.setV x (s.getV y), exec_ldVxVy x y s, s.getV_setV_same x _, s.setV_leaves_rest x _⟩

/-- Settles O27: each of the three is one register write of the bitwise result, with no write of VF as a flag (R77, R78,
R79). -/
theorem bitwiseOperations : Obligations.BitwiseOperations := by
  unfold Obligations.BitwiseOperations
  intro x y s
  refine ⟨⟨_, exec_or x y s, ?_, s.setV_leaves_rest x _⟩, ⟨_, exec_and x y s, ?_, s.setV_leaves_rest x _⟩,
    ⟨_, exec_xor x y s, ?_, s.setV_leaves_rest x _⟩⟩
  · intro j _; rw [State.getV_setV_same, BitVec.getLsbD_or]
  · intro j _; rw [State.getV_setV_same, BitVec.getLsbD_and]
  · intro j _; rw [State.getV_setV_same, BitVec.getLsbD_xor]

end Sys2Proof.Machine
end

section
/-!
PROOFS. The family of Annn and 00E0 (spec/43_index_display.md R90, R91): the address field as a natural number, the decoder
on the two, each execution as one write of its own register, and the two obligations O33 and O34.
-/

namespace Sys2Proof

/-! ## Decoding (R46, R48) -/

theorem opNnn_eq_ofNat (op : Word) : opNnn op = BitVec.ofNat 12 op.toNat :=
  BitVec.eq_of_toNat_eq (by rw [opNnn_toNat, BitVec.toNat_ofNat])

theorem decodeWord_familyA {op : Word} (h : opFamily op = 0xA#4) : decodeWord op = .instr (.ldINnn (opNnn op)) := by
  rw [decodeWord_of_family (by rw [h]; decide), decodeByFamily, h]
  rfl

/-- The first line of R48. -/
theorem decodeWord_00E0 : decodeWord 0x00E0 = .instr .cls := if_pos rfl

end Sys2Proof

namespace Sys2Proof.Machine

/-! ## Executing (R90, R91) -/

theorem exec_ldINnn (nnn : Addr12) (s : State) : exec (.ldINnn nnn) s = .next (s.setI (addrOperand nnn)) := rfl

theorem exec_cls (s : State) : exec .cls s = .next (s.setFb Display.clear) := rfl

/-- Zero-extension keeps the address as a natural number (R90). -/
theorem addrOperand_toNat (nnn : Addr12) : (addrOperand nnn).toNat = nnn.toNat :=
  BitVec.toNat_setWidth_of_le (by decide)

/-- A write of the index register changes nothing else. -/
theorem State.setI_frame (s : State) (w : Word) : s.setI w = { s with i := (s.setI w).i } := rfl

/-- A write of the display changes nothing else. -/
theorem State.setFb_frame (s : State) (d : Display) : s.setFb d = { s with fb := (s.setFb d).fb } := rfl

/-! ## The obligations -/

/-- Settles O33: the decoder's line of family A, and one write of `I` by the zero-extended address (R90). -/
theorem loadIndexSetsI : Obligations.LoadIndexSetsI := by
  unfold Obligations.LoadIndexSetsI
  constructor
  · intro op hop
    rw [decodeWord_familyA (opFamily_eq_of_div hop), opNnn_eq_ofNat]
  · intro nnn s
    refine ⟨s.setI (addrOperand nnn), exec_ldINnn nnn s, ?_, s.setI_frame _⟩
    rw [State.setI_i, addrOperand_toNat]

/-- Settles O34: the first line of the decoder, and one write of the display by the clear one (R91). -/
theorem clearSetsEveryPixelToZero : Obligations.ClearSetsEveryPixelToZero := by
  unfold Obligations.ClearSetsEveryPixelToZero
  refine ⟨decodeWord_00E0, fun s => ⟨s.setFb Display.clear, exec_cls s, ?_, s.setFb_frame _⟩⟩
  intro r c
  rw [State.setFb_fb, Display.pixel_clear]

end Sys2Proof.Machine
end

section
/-!
PROOFS. Encoding (spec/30_encoding.md R45 to R53): the decoder on every family, a word rebuilt from the fields of its format,
decoder and encoder inverse to each other, the unknown words, and the opcode map by match and mask; the obligations O1 to O6.
-/

namespace Sys2Proof

/-! ## The decoder's line of each family (R48) -/

/-- The last line that can take a word of family 0. -/
theorem decodeWord_family0 {op : Word} (h : opFamily op = 0x0#4) (h1 : op ≠ 0x00E0#16) (h2 : op ≠ 0x00EE#16) :
    decodeWord op = .instr (.sys (opNnn op)) := by
  rw [decodeWord, if_neg h1, if_neg h2, h]
  rfl

theorem decodeWord_family1 {op : Word} (h : opFamily op = 0x1#4) : decodeWord op = .instr (.jp (opNnn op)) := by
  rw [decodeWord_of_family (by rw [h]; decide), decodeByFamily, h]
  rfl

theorem decodeWord_family2 {op : Word} (h : opFamily op = 0x2#4) : decodeWord op = .instr (.call (opNnn op)) := by
  rw [decodeWord_of_family (by rw [h]; decide), decodeByFamily, h]
  rfl

theorem decodeWord_family3 {op : Word} (h : opFamily op = 0x3#4) :
    decodeWord op = .instr (.seVxKk (opX op) (opKk op)) := by
  rw [decodeWord_of_family (by rw [h]; decide), decodeByFamily, h]
  rfl

theorem decodeWord_family4 {op : Word} (h : opFamily op = 0x4#4) :
    decodeWord op = .instr (.sneVxKk (opX op) (opKk op)) := by
  rw [decodeWord_of_family (by rw [h]; decide), decodeByFamily, h]
  rfl

theorem decodeWord_family5 {op : Word} (h : opFamily op = 0x5#4) :
    decodeWord op = if opN op = 0x0#4 then .instr (.seVxVy (opX op) (opY op)) else .unknown .word5xyN := by
  rw [decodeWord_of_family (by rw [h]; decide), decodeByFamily, h]
  rfl

theorem decodeWord_family8 {op : Word} (h : opFamily op = 0x8#4) : decodeWord op = decodeAlu op := by
  rw [decodeWord_of_family (by rw [h]; decide), decodeByFamily, h]
  rfl

theorem decodeWord_familyD {op : Word} (h : opFamily op = 0xD#4) :
    decodeWord op = .instr (.drw (opX op) (opY op) (opN op)) := by
  rw [decodeWord_of_family (by rw [h]; decide), decodeByFamily, h]
  rfl

/-- The second line of R48. -/
theorem decodeWord_00EE : decodeWord 0x00EE = .instr .ret := by decide

/-- The decoder on a word of family 8 laid out from its fields: nibble 3 selects the line. -/
theorem decodeWord_wordXyn8 (x y : Reg) (n : Nibble) : decodeWord (wordXyn 0x8 x y n) = decodeAlu (wordXyn 0x8 x y n) :=
  decodeWord_family8 (opFamily_wordXyn _ x y n)

/-! ## A word rebuilt from the fields of its format (R45, R46) -/

theorem word_eq_wordNnn (op : Word) : op = wordNnn (opFamily op) (opNnn op) := by
  apply BitVec.eq_of_toNat_eq
  rw [wordNnn_toNat, opFamily_toNat, opNnn_toNat]
  omega

theorem word_eq_wordXkk (op : Word) : op = wordXkk (opFamily op) (opX op) (opKk op) := by
  apply BitVec.eq_of_toNat_eq
  rw [wordXkk_toNat, opFamily_toNat, opX_val, opKk_toNat]
  omega

theorem wordNnn_of_family {op : Word} {f : Nibble} (h : (opFamily op).toNat = f.toNat) : wordNnn f (opNnn op) = op := by
  rw [← BitVec.eq_of_toNat_eq h, ← word_eq_wordNnn]

theorem wordXkk_of_family {op : Word} {f : Nibble} (h : (opFamily op).toNat = f.toNat) :
    wordXkk f (opX op) (opKk op) = op := by
  rw [← BitVec.eq_of_toNat_eq h, ← word_eq_wordXkk]

theorem wordXyn_of_family {op : Word} {f n : Nibble} (h : (opFamily op).toNat = f.toNat)
    (hn : (opN op).toNat = n.toNat) : wordXyn f (opX op) (opY op) n = op := by
  rw [← BitVec.eq_of_toNat_eq h, ← BitVec.eq_of_toNat_eq hn, ← word_eq_wordXyn]

/-! ## Decode after encode -/

/-- A well-formed SYS has neither of the two fixed words. -/
theorem wordNnn_ne_fixed {nnn : Addr12} (h : (Instr.sys nnn).wellFormed = true) :
    wordNnn 0x0 nnn ≠ 0x00E0#16 ∧ wordNnn 0x0 nnn ≠ 0x00EE#16 := by
  simp only [Instr.wellFormed, Bool.and_eq_true, bne_iff_ne] at h
  constructor
  · intro e; exact h.1 (by rw [← opNnn_wordNnn 0x0 nnn, e]; decide)
  · intro e; exact h.2 (by rw [← opNnn_wordNnn 0x0 nnn, e]; decide)

/-- Settles O1: the word of each instruction is of the instruction's family, and its fields are the operands. -/
theorem decodeOfEncodeIsTheInstruction : Obligations.DecodeOfEncodeIsTheInstruction := by
  unfold Obligations.DecodeOfEncodeIsTheInstruction
  intro i hwf
  cases i with
  | cls => exact decodeWord_00E0
  | ret => exact decodeWord_00EE
  | sys nnn =>
    obtain ⟨h1, h2⟩ := wordNnn_ne_fixed hwf
    rw [encode, decodeWord_family0 (opFamily_wordNnn 0x0 nnn) h1 h2, opNnn_wordNnn]
  | jp nnn => rw [encode, decodeWord_family1 (opFamily_wordNnn 0x1 nnn), opNnn_wordNnn]
  | call nnn => rw [encode, decodeWord_family2 (opFamily_wordNnn 0x2 nnn), opNnn_wordNnn]
  | seVxKk x kk => rw [encode, decodeWord_family3 (opFamily_wordXkk 0x3 x kk), opX_wordXkk, opKk_wordXkk]
  | sneVxKk x kk => rw [encode, decodeWord_family4 (opFamily_wordXkk 0x4 x kk), opX_wordXkk, opKk_wordXkk]
  | seVxVy x y => simp [encode, decodeWord_family5]
  | ldVxKk x kk => rw [encode, decodeWord_family6 (opFamily_wordXkk 0x6 x kk), opX_wordXkk, opKk_wordXkk]
  | addVxKk x kk => rw [encode, decodeWord_family7 (opFamily_wordXkk 0x7 x kk), opX_wordXkk, opKk_wordXkk]
  | ldINnn nnn => rw [encode, decodeWord_familyA (opFamily_wordNnn 0xA nnn), opNnn_wordNnn]
  | drw x y n =>
    rw [encode, decodeWord_familyD (opFamily_wordXyn 0xD x y n), opX_wordXyn, opY_wordXyn, opN_wordXyn]
  | _ x y => rw [encode, decodeWord_wordXyn8]; simp [decodeAlu]

/-! ## Encode after decode -/

/-- The lines of family 8 lose no bit of the word. -/
theorem encode_of_decodeAlu {op : Word} {i : Instr} (hf : (opFamily op).toNat = 0x8) (h : decodeAlu op = .instr i) :
    encode i = op ∧ i.wellFormed = true := by
  unfold decodeAlu at h
  split at h <;> cases h <;> exact ⟨wordXyn_of_family hf ‹_›, rfl⟩

/-- The lines below the two fixed words lose no bit of the word. -/
theorem encode_of_decodeByFamily {op : Word} {i : Instr} (h1 : op ≠ 0x00E0#16) (h2 : op ≠ 0x00EE#16)
    (h : decodeByFamily op = .instr i) : encode i = op ∧ i.wellFormed = true := by
  unfold decodeByFamily at h
  split at h
  next hf =>
    cases h
    have he : wordNnn 0x0 (opNnn op) = op := wordNnn_of_family hf
    refine ⟨he, ?_⟩
    simp only [Instr.wellFormed, Bool.and_eq_true, bne_iff_ne]
    constructor
    · intro e; exact h1 (by rw [← he, e]; decide)
    · intro e; exact h2 (by rw [← he, e]; decide)
  next hf => cases h; exact ⟨wordNnn_of_family hf, rfl⟩
  next hf => cases h; exact ⟨wordNnn_of_family hf, rfl⟩
  next hf => cases h; exact ⟨wordXkk_of_family hf, rfl⟩
  next hf => cases h; exact ⟨wordXkk_of_family hf, rfl⟩
  next hf =>
    split at h
    next hn => cases h; exact ⟨wordXyn_of_family hf (congrArg BitVec.toNat hn), rfl⟩
    next => cases h
  next hf => cases h; exact ⟨wordXkk_of_family hf, rfl⟩
  next hf => cases h; exact ⟨wordXkk_of_family hf, rfl⟩
  next hf => exact encode_of_decodeAlu hf h
  next => cases h
  next hf => cases h; exact ⟨wordNnn_of_family hf, rfl⟩
  next => cases h
  next => cases h
  next hf => cases h; exact ⟨wordXyn_of_family hf rfl, rfl⟩
  next => cases h
  next => cases h

/-- Settles O2: line by line, the word is rebuilt from the fields that the decoder took from it. -/
theorem encodeOfDecodeIsTheWord : Obligations.EncodeOfDecodeIsTheWord := by
  unfold Obligations.EncodeOfDecodeIsTheWord
  intro op i h
  rcases decodeWord_cases op with ⟨rfl, e⟩ | ⟨rfl, e⟩ | ⟨h1, h2, e⟩
  · rw [e] at h; cases h; exact ⟨rfl, rfl⟩
  · rw [e] at h; cases h; exact ⟨rfl, rfl⟩
  · rw [e] at h; exact encode_of_decodeByFamily h1 h2 h

/-! ## The operand fields (R46) -/

/-- The encoder puts every operand at its bits. -/
theorem fieldsStandIn_encode (i : Instr) : Claims.fieldsStandIn (encode i) i := by
  cases i with
  | cls | ret => rfl
  | sys nnn | jp nnn | call nnn | ldINnn nnn => simp only [Claims.fieldsStandIn, encode, wordNnn_toNat]; omega
  | seVxKk x kk | sneVxKk x kk | ldVxKk x kk | addVxKk x kk =>
    simp only [Claims.fieldsStandIn, encode, wordXkk_toNat]; omega
  | _ x y => simp only [Claims.fieldsStandIn, encode, wordXyn_toNat]; omega

/-- Settles O5: the word is the encoding of the instruction it decodes to, and the encoder puts every operand at its bits. -/
theorem operandFieldsStandAtTheirBits : Obligations.OperandFieldsStandAtTheirBits := by
  unfold Obligations.OperandFieldsStandAtTheirBits
  intro op i h
  obtain ⟨rfl, -⟩ := encodeOfDecodeIsTheWord op i h
  exact fieldsStandIn_encode i

/-! ## The unknown words (R52) -/

/-- The unknown words of family 8, by nibble 3. -/
theorem decodeAlu_unknown_iff (op : Word) :
    (∃ why, decodeAlu op = .unknown why) ↔ 0x8 ≤ op.toNat % 16 ∧ op.toNat % 16 ≠ 0xE := by
  have hn := opN_toNat op
  unfold decodeAlu
  split
  case h_10 => simp only [imp_false] at *; simp; omega
  all_goals simp; omega

/-- The unknown words by the lines below the two fixed words. -/
theorem decodeByFamily_unknown_iff (op : Word) : (∃ why, decodeByFamily op = .unknown why) ↔
    (op.toNat / 4096 = 0x5 ∧ op.toNat % 16 ≠ 0) ∨
    (op.toNat / 4096 = 0x8 ∧ 0x8 ≤ op.toNat % 16 ∧ op.toNat % 16 ≠ 0xE) ∨
    op.toNat / 4096 = 0x9 ∨ op.toNat / 4096 = 0xB ∨ op.toNat / 4096 = 0xC ∨ op.toNat / 4096 = 0xE ∨
    op.toNat / 4096 = 0xF := by
  have hop := op.isLt
  have hf := opFamily_toNat op
  have hn := opN_toNat op
  unfold decodeByFamily
  split
  case h_6 hf5 =>
    split
    case isTrue h0 => rw [h0] at hn; simp at hn ⊢; omega
    case isFalse h0 =>
      have : (opN op).toNat ≠ 0 := fun e => h0 (BitVec.eq_of_toNat_eq e)
      simp
      omega
  case h_9 hf8 => rw [decodeAlu_unknown_iff]; omega
  case h_16 => simp only [imp_false] at *; simp; omega
  all_goals simp; omega

/-- Settles O4: the two fixed words are in no row of the list, and below them the lines of the decoder are those of the
list. -/
theorem unknownWordsAreExactlyTheListedOnes : Obligations.UnknownWordsAreExactlyTheListedOnes := by
  unfold Obligations.UnknownWordsAreExactlyTheListedOnes
  intro op
  rcases decodeWord_cases op with ⟨rfl, e⟩ | ⟨rfl, e⟩ | ⟨-, -, e⟩
  · simp [e]
  · simp [e]
  · rw [e, decodeByFamily_unknown_iff]

/-! ## The opcode map (R49) -/

/-- The mnemonic that a decoder's answer names. -/
def Decoded.mnemonic? : Decoded → Option String
  | .instr i => some i.mnemonic
  | .unknown _ => none

/-- The word with the nibbles 0 and 3 of `op`, which the masks of R49 look at, and 0 between them. -/
def selectorWord (op : Word) : Word := wordXyn (opFamily op) 0 0 (opN op)

theorem and_selector_mask (op : Word) : op &&& 0xF00F#16 = selectorWord op := by
  rw [selectorWord, ← Laws.RowMatch.xyn_and_family_sub _ (opX op) (opY op), ← word_eq_wordXyn]

/-- A selector word is neither of the two fixed words, whose nibble 2 is 0xE. -/
theorem selectorWord_ne_fixed (op : Word) : selectorWord op ≠ 0x00E0#16 ∧ selectorWord op ≠ 0x00EE#16 := by
  have hy : opY (selectorWord op) = 0 := opY_wordXyn _ _ _ _
  exact ⟨fun e => by rw [e] at hy; exact absurd hy (by decide), fun e => by rw [e] at hy; exact absurd hy (by decide)⟩

/-- Below the two fixed words the decoder's line depends on nibbles 0 and 3 alone. -/
theorem mnemonic_decodeByFamily_selectorWord (op : Word) :
    (decodeByFamily (selectorWord op)).mnemonic? = (decodeByFamily op).mnemonic? := by
  have hf : opFamily (selectorWord op) = opFamily op := opFamily_wordXyn _ _ _ _
  have hn : opN (selectorWord op) = opN op := opN_wordXyn _ _ _ _
  simp only [decodeByFamily, decodeAlu, hf, hn]
  split
  case h_6 => split <;> rfl
  case h_9 => split <;> rfl
  all_goals rfl

/-- A row whose mask lies within nibbles 0 and 3 is selected by a word exactly when it is by its selector word. -/
theorem selects_selectorWord {row : OpcodeRow} (op : Word) (h : 0xF00F#16 &&& row.mask = row.mask) :
    row.selects (selectorWord op) = row.selects op := by
  rw [OpcodeRow.selects, OpcodeRow.selects, ← and_selector_mask, BitVec.and_assoc, h]

/-- The masks of the map: a fixed word's row looks at all of the word, every other row within nibbles 0 and 3. -/
theorem opcodeTable_masks : ∀ row ∈ opcodeTable,
    (row.mask = 0xFFFF#16 ∧ (row.value = 0x00E0#16 ∨ row.value = 0x00EE#16)) ∨ 0xF00F#16 &&& row.mask = row.mask := by
  decide

theorem selects_of_full_mask {row : OpcodeRow} {op : Word} (hm : row.mask = 0xFFFF#16) (h : op ≠ row.value) :
    row.selects op = false := by
  have hall : op &&& 0xFFFF#16 = op := BitVec.and_allOnes
  rw [OpcodeRow.selects, hm, hall]
  exact beq_false_of_ne h

/-- A word other than the two fixed words selects the row of its selector word. -/
theorem selectedRow_selectorWord {op : Word} (h1 : op ≠ 0x00E0#16) (h2 : op ≠ 0x00EE#16) :
    selectedRow (selectorWord op) = selectedRow op := by
  apply List.find?_congr
  intro row hrow
  obtain ⟨g1, g2⟩ := selectorWord_ne_fixed op
  rcases opcodeTable_masks row hrow with ⟨hm, hv | hv⟩ | hm
  · rw [selects_of_full_mask hm (hv ▸ g1), selects_of_full_mask hm (hv ▸ h1)]
  · rw [selects_of_full_mask hm (hv ▸ g2), selects_of_full_mask hm (hv ▸ h2)]
  · exact selects_selectorWord op hm

/-- The map and the decoder agree on each of the 256 selector words. -/
theorem selectedRow_eq_decode_of_selector : ∀ f n : Nibble,
    (selectedRow (wordXyn f 0 0 n)).map OpcodeRow.mnemonic = (decodeByFamily (wordXyn f 0 0 n)).mnemonic? := by
  decide

/-- Settles O3: the two fixed words by evaluation; below them both the row and the decoder's line depend on nibbles 0 and 3
alone, and for these the two agree. -/
theorem decodeSelectsTheRowOfTheOpcodeMap : Obligations.DecodeSelectsTheRowOfTheOpcodeMap := by
  unfold Obligations.DecodeSelectsTheRowOfTheOpcodeMap
  intro op
  show (selectedRow op).map OpcodeRow.mnemonic = (decodeWord op).mnemonic?
  rcases decodeWord_cases op with ⟨rfl, -⟩ | ⟨rfl, -⟩ | ⟨h1, h2, e⟩
  · decide
  · decide
  · rw [e, ← selectedRow_selectorWord h1 h2, ← mnemonic_decodeByFamily_selectorWord]
    exact selectedRow_eq_decode_of_selector (opFamily op) (opN op)

/-! ## Sample words -/

/-- Settles O6: each word by evaluation of the decoder. -/
theorem sampleWordsOfEveryFamilyDecode : Obligations.SampleWordsOfEveryFamilyDecode := by
  unfold Obligations.SampleWordsOfEveryFamilyDecode
  decide

end Sys2Proof
end

section
/-!
PROOFS. Control flow (spec/40_control_flow.md R60 to R66): the decoder on the families of 0nnn, 1nnn, 3xkk, 4xkk and 5xyN, each
instruction's next state as one equation, and the obligations O7 and O15 to O23.
-/

namespace Sys2Proof

/-! ## Fields and words as naturals -/

theorem opY_eq_ofNat (op : Word) : opY op = Fin.ofNat 16 (op.toNat / 16) :=
  Fin.ext (opY_val op)

/-- Nibble 3 is 0 exactly when the word is a multiple of 16. -/
theorem opN_eq_zero_iff (op : Word) : opN op = 0x0#4 ↔ op.toNat % 16 = 0 := by
  rw [← opN_toNat, ← BitVec.toNat_inj]
  rfl

/-- A word of family 0 that is neither of the two fixed words is SYS of its low 12 bits (R51, R61). -/
theorem decodeWord_sys {op : Word} (hf : op.toNat / 4096 = 0) (h1 : op.toNat ≠ 0x00E0) (h2 : op.toNat ≠ 0x00EE) :
    decodeWord op = .instr (.sys (BitVec.ofNat 12 op.toNat)) := by
  rw [decodeWord_family0 (opFamily_eq_of_div hf) (fun e => h1 (congrArg BitVec.toNat e))
    (fun e => h2 (congrArg BitVec.toNat e)), opNnn_eq_ofNat]

theorem encode_call_eq_ofNat (nnn : Addr12) : encode (.call nnn) = BitVec.ofNat 16 (0x2000 + nnn.toNat) := by
  apply BitVec.eq_of_toNat_eq
  have := nnn.isLt
  rw [encode, wordNnn_toNat, BitVec.toNat_ofNat, show (0x2 : Nibble).toNat = 2 from rfl]
  omega

end Sys2Proof

namespace Sys2Proof.Machine

/-! ## Executing (R60 to R66) -/

theorem addrOperand_eq_ofNat (nnn : Addr12) : addrOperand nnn = BitVec.ofNat 16 nnn.toNat :=
  BitVec.eq_of_toNat_eq (by rw [addrOperand_toNat, BitVec.toNat_ofNat]; omega)

theorem exec_sys (nnn : Addr12) (s : State) : exec (.sys nnn) s = .next s := rfl

theorem exec_jp (nnn : Addr12) (s : State) : exec (.jp nnn) s = .next { s with pc := addrOperand nnn } := rfl

theorem exec_seVxKk (x : Reg) (kk : Byte) (s : State) :
    exec (.seVxKk x kk) s = .next { s with pc := if s.getV x = kk then s.pc + 2 else s.pc } := by
  show Host.Outcome.next (s.skipIf (s.getV x == kk)) = _
  rw [State.skipIf_eq]
  simp

theorem exec_sneVxKk (x : Reg) (kk : Byte) (s : State) :
    exec (.sneVxKk x kk) s = .next { s with pc := if s.getV x = kk then s.pc else s.pc + 2 } := by
  show Host.Outcome.next (s.skipIf (s.getV x != kk)) = _
  rw [State.skipIf_eq]
  by_cases h : s.getV x = kk <;> simp [h]

theorem exec_seVxVy (x y : Reg) (s : State) :
    exec (.seVxVy x y) s = .next { s with pc := if s.getV x = s.getV y then s.pc + 2 else s.pc } := by
  show Host.Outcome.next (s.skipIf (s.getV x == s.getV y)) = _
  rw [State.skipIf_eq]
  simp

theorem exec_ret_pops {s : State} (h : 0 < s.sp.val) :
    exec .ret s = .next { s with sp := ⟨s.sp.val - 1, by omega⟩, pc := s.stk[s.sp.val - 1] } := by
  show execRet s = _
  rw [execRet, State.pop?_some h]
  rfl

theorem exec_ret_faults {s : State} (h : s.sp = 0) :
    exec .ret s = .next (s.raise .stackUnderflow s.fetchedFrom (encode .ret)) := by
  show execRet s = _
  rw [execRet, State.pop?_empty h]

theorem exec_call_pushes (nnn : Addr12) {s : State} (h : s.sp.val < 16) : exec (.call nnn) s =
    .next { s with stk := s.stk.set s.sp.val s.pc, sp := ⟨s.sp.val + 1, by omega⟩, pc := addrOperand nnn } := by
  show execCall nnn s = _
  rw [execCall, State.push?_some s.pc h]
  rfl

theorem exec_call_faults (nnn : Addr12) {s : State} (h : s.sp = 16) :
    exec (.call nnn) s = .next (s.raise .stackOverflow s.fetchedFrom (encode (.call nnn))) := by
  show execCall nnn s = _
  rw [execCall, State.push?_full s.pc h]

/-- A slot of the stack after one slot is written. -/
theorem getElem_stk_set (stk : Vector Word 16) {k j : Nat} (hk : k < 16) (hj : j < 16) (w : Word) :
    (stk.set k w)[j] = if j = k then w else stk[j] := by
  rw [Vector.getElem_set]
  simp [eq_comm]

/-! ## The obligations -/

/-- Settles O7: the meanings of SHR, SHL and SYS do not name the ignored field, and the words of family 0 but the two fixed
ones are SYS (R51). -/
theorem ignoredFieldsChangeNothing : Obligations.IgnoredFieldsChangeNothing := by
  unfold Obligations.IgnoredFieldsChangeNothing
  refine ⟨fun x y y' s => rfl, fun x y y' s => rfl, ?_, exec_sys⟩
  intro op hle h1 h2
  exact ⟨_, decodeWord_sys (by omega) h1 h2⟩

/-- Settles O15: the decoder's line of family 0, and the meaning of SYS (R61). -/
theorem sysIsANoOp : Obligations.SysIsANoOp := by
  unfold Obligations.SysIsANoOp
  exact ⟨fun _ hf h1 h2 => decodeWord_sys hf h1 h2, exec_sys⟩

/-- Settles O16: the decoder's line of family 1, and one write of `PC` (R62). -/
theorem jumpLoadsPc : Obligations.JumpLoadsPc := by
  unfold Obligations.JumpLoadsPc
  constructor
  · intro op hf
    rw [decodeWord_family1 (opFamily_eq_of_div hf), opNnn_eq_ofNat]
  · intro nnn s
    rw [exec_jp, addrOperand_eq_ofNat]

/-- Settles O17: the decoder's lines of families 3 and 4, and the skip of each (R64, R65). -/
theorem skipOnImmediate : Obligations.SkipOnImmediate := by
  unfold Obligations.SkipOnImmediate
  refine ⟨?_, ?_, fun x kk s => ⟨exec_seVxKk x kk s, exec_sneVxKk x kk s⟩⟩
  · intro op hf
    rw [decodeWord_family3 (opFamily_eq_of_div hf), opX_eq_ofNat, opKk_eq_ofNat]
  · intro op hf
    rw [decodeWord_family4 (opFamily_eq_of_div hf), opX_eq_ofNat, opKk_eq_ofNat]

/-- Settles O18: the decoder's line of family 5 by nibble 3, and the skip, whose condition holds with `x` = `y` (R66). -/
theorem skipOnEqualRegisters : Obligations.SkipOnEqualRegisters := by
  unfold Obligations.SkipOnEqualRegisters
  refine ⟨?_, ?_, exec_seVxVy, ?_⟩
  · intro op hf hn
    rw [decodeWord_family5 (opFamily_eq_of_div hf), if_pos ((opN_eq_zero_iff op).mpr hn), opX_eq_ofNat, opY_eq_ofNat]
  · intro op hf hn
    exact ⟨_, by rw [decodeWord_family5 (opFamily_eq_of_div hf), if_neg (fun e => hn ((opN_eq_zero_iff op).mp e))]⟩
  · intro x s
    rw [exec_seVxVy, if_pos rfl]

/-- Settles O19: the pop that is not refused (R60). -/
theorem returnPopsIntoPc : Obligations.ReturnPopsIntoPc := by
  unfold Obligations.ReturnPopsIntoPc
  exact fun s h => exec_ret_pops h

/-- Settles O20: the refused pop raises the underflow and nothing else (R60, R103). -/
theorem returnOnEmptyStackFaults : Obligations.ReturnOnEmptyStackFaults := by
  unfold Obligations.ReturnOnEmptyStackFaults
  exact fun s h => exec_ret_faults h

/-- Settles O21: the push that is not refused, and the jump (R63). -/
theorem callPushesTheAdvancedPc : Obligations.CallPushesTheAdvancedPc := by
  unfold Obligations.CallPushesTheAdvancedPc
  intro nnn s h
  exact ⟨_, exec_call_pushes nnn h, addrOperand_eq_ofNat nnn, rfl, fun j hj => getElem_stk_set s.stk h hj s.pc, rfl⟩

/-- Settles O22: the refused push raises the overflow and nothing else (R63, R103). -/
theorem callOnFullStackFaults : Obligations.CallOnFullStackFaults := by
  unfold Obligations.CallOnFullStackFaults
  intro nnn s h
  rw [exec_call_faults nnn h, encode_call_eq_ofNat]
  rfl

/-- Settles O23: the return pops the slot that the call has just written, and below it no slot has changed (R60, R63). -/
theorem returnResumesAfterTheCall : Obligations.ReturnResumesAfterTheCall := by
  unfold Obligations.ReturnResumesAfterTheCall
  intro nnn s h
  have hpop : (s.stk.set s.sp.val s.pc)[s.sp.val + 1 - 1] = s.pc := by simp
  refine ⟨_, _, exec_call_pushes nnn h, exec_ret_pops (Nat.succ_pos _), hpop, rfl, ?_, ?_⟩
  · simp only [hpop]
    rfl
  · intro j hj hlt
    show (s.stk.set s.sp.val s.pc)[j] = s.stk[j]
    rw [getElem_stk_set s.stk h hj, if_neg (by omega)]

end Sys2Proof.Machine
end

section
/-!
PROOFS. The flag-writing instructions of the ALU (spec/42_alu.md R75, R80 to R85): each result and flag as naturals, the order
of the two writes said once, and the obligations O28 to O32.
-/

namespace Sys2Proof.Machine

/-! ## Results and flags as naturals (R80 to R84) -/

theorem addWithCarry_result (a b : Byte) : (addWithCarry a b).result.toNat = (a.toNat + b.toNat) % 256 := by
  simp [addWithCarry, BitVec.extractLsb'_toNat]

theorem addWithCarry_flag (a b : Byte) : (addWithCarry a b).flag = decide (255 < a.toNat + b.toNat) := by
  have ha := a.isLt
  have hb := b.isLt
  simp only [addWithCarry, BitVec.getLsbD, BitVec.toNat_add, BitVec.zeroExtend, BitVec.toNat_setWidth,
    Nat.testBit_eq_decide_div_mod_eq, decide_eq_decide]
  omega

theorem subNoBorrow_result (a b : Byte) : ((subNoBorrow a b).result.toNat : Int) = (a.toNat - b.toNat : Int) % 256 := by
  have ha := a.isLt
  have hb := b.isLt
  simp only [subNoBorrow, BitVec.toNat_sub]
  omega

theorem subNoBorrow_flag (a b : Byte) : (subNoBorrow a b).flag = decide (b.toNat ≤ a.toNat) := rfl

theorem shiftRightOne_result (a : Byte) : (shiftRightOne a).result.toNat = a.toNat / 2 := by
  simp [shiftRightOne, Nat.shiftRight_eq_div_pow]

theorem shiftRightOne_flag (a : Byte) : (shiftRightOne a).flag = a.getLsbD 0 := rfl

theorem shiftLeftOne_result (a : Byte) : (shiftLeftOne a).result.toNat = 2 * a.toNat % 256 := by
  simp [shiftLeftOne, Nat.shiftLeft_eq]
  omega

theorem shiftLeftOne_flag (a : Byte) : (shiftLeftOne a).flag = a.getLsbD 7 := rfl

/-- A flag as the byte VF receives (R11). -/
theorem flagByte_decide (p : Prop) [Decidable p] : flagByte (decide p) = if p then 0x01 else 0x00 := by
  simp [flagByte]

theorem flagByte_toNat (b : Bool) : (flagByte b).toNat = b.toNat := by
  cases b <;> rfl

theorem bit0_toNat (a : Byte) : (a.getLsbD 0).toNat = a.toNat % 2 := by
  rw [BitVec.getLsbD, Nat.toNat_testBit, pow_zero, Nat.div_one]

theorem bit7_toNat (a : Byte) : (a.getLsbD 7).toNat = a.toNat / 128 := by
  have := a.isLt
  rw [BitVec.getLsbD, Nat.toNat_testBit]
  omega

/-! ## The two writes (R75) -/

theorem State.getV_writeFlagged_result (s : State) (x : Reg) (r : AluResult) :
    (s.writeFlagged x r).getV x = r.result := by
  rw [State.getV_writeFlagged, if_pos rfl]

theorem State.getV_writeFlagged_flag (s : State) {x : Reg} (r : AluResult) (hx : x ≠ 15) :
    (s.writeFlagged x r).getV 15 = flagByte r.flag := by
  rw [State.getV_writeFlagged, if_neg hx.symm]
  rfl

/-- A flag-writing instruction leaves every register but `V[x]` and VF, and everything outside the register file. -/
theorem State.writeFlagged_leaves_rest (s : State) (x : Reg) (r : AluResult) :
    (∀ q, q ≠ x → q ≠ 15 → (s.writeFlagged x r).getV q = s.getV q) ∧
      s.writeFlagged x r = { s with v := (s.writeFlagged x r).v } := by
  refine ⟨fun q hx h15 => ?_, s.writeFlagged_frame x r⟩
  rw [State.getV_writeFlagged, if_neg hx, if_neg (show q ≠ Config.flagReg from h15)]

/-! ## Executing (R80 to R84) -/

theorem exec_addVxVy (x y : Reg) (s : State) :
    exec (.addVxVy x y) s = .next (s.writeFlagged x (addWithCarry (s.getV x) (s.getV y))) := rfl

theorem exec_sub (x y : Reg) (s : State) :
    exec (.sub x y) s = .next (s.writeFlagged x (subNoBorrow (s.getV x) (s.getV y))) := rfl

theorem exec_subn (x y : Reg) (s : State) :
    exec (.subn x y) s = .next (s.writeFlagged x (subNoBorrow (s.getV y) (s.getV x))) := rfl

theorem exec_shr (x y : Reg) (s : State) :
    exec (.shr x y) s = .next (s.writeFlagged x (shiftRightOne (s.getV x))) := rfl

theorem exec_shl (x y : Reg) (s : State) :
    exec (.shl x y) s = .next (s.writeFlagged x (shiftLeftOne (s.getV x))) := rfl

/-! ## The obligations -/

/-- Settles O28: the 9-bit sum's low byte and its carry, written in R75's order (R80). -/
theorem addWritesCarry : Obligations.AddWritesCarry := by
  unfold Obligations.AddWritesCarry
  intro x y s
  refine ⟨_, exec_addVxVy x y s, ?_, fun hx => ?_, s.writeFlagged_leaves_rest x _⟩
  · rw [State.getV_writeFlagged_result, addWithCarry_result]
  · rw [s.getV_writeFlagged_flag _ hx, addWithCarry_flag, flagByte_decide]

/-- Settles O29: the difference and the comparison, written in R75's order (R81). -/
theorem subtractWritesNoBorrow : Obligations.SubtractWritesNoBorrow := by
  unfold Obligations.SubtractWritesNoBorrow
  intro x y s
  refine ⟨_, exec_sub x y s, ?_, fun hx => ?_, s.writeFlagged_leaves_rest x _⟩
  · rw [State.getV_writeFlagged_result, subNoBorrow_result]
  · rw [s.getV_writeFlagged_flag _ hx, subNoBorrow_flag, flagByte_decide]

/-- Settles O30: the difference and the comparison with the operands exchanged, written in R75's order (R83). -/
theorem reverseSubtractWritesNoBorrow : Obligations.ReverseSubtractWritesNoBorrow := by
  unfold Obligations.ReverseSubtractWritesNoBorrow
  intro x y s
  refine ⟨_, exec_subn x y s, ?_, fun hx => ?_, s.writeFlagged_leaves_rest x _⟩
  · rw [State.getV_writeFlagged_result, subNoBorrow_result]
  · rw [s.getV_writeFlagged_flag _ hx, subNoBorrow_flag, flagByte_decide]

/-- Settles O31: the half and bit 0, written in R75's order (R82). -/
theorem shiftRightWritesTheBitOut : Obligations.ShiftRightWritesTheBitOut := by
  unfold Obligations.ShiftRightWritesTheBitOut
  intro x y s
  refine ⟨_, exec_shr x y s, ?_, fun hx => ?_, s.writeFlagged_leaves_rest x _⟩
  · rw [State.getV_writeFlagged_result, shiftRightOne_result]
  · rw [s.getV_writeFlagged_flag _ hx, shiftRightOne_flag, flagByte_toNat, bit0_toNat]

/-- Settles O32: the double and bit 7, written in R75's order (R84). -/
theorem shiftLeftWritesTheBitOut : Obligations.ShiftLeftWritesTheBitOut := by
  unfold Obligations.ShiftLeftWritesTheBitOut
  intro x y s
  refine ⟨_, exec_shl x y s, ?_, fun hx => ?_, s.writeFlagged_leaves_rest x _⟩
  · rw [State.getV_writeFlagged_result, shiftLeftOne_result]
  · rw [s.getV_writeFlagged_flag _ hx, shiftLeftOne_flag, flagByte_toNat, bit7_toNat]

end Sys2Proof.Machine
end

section
/-!
PROOFS. The draw (spec/43_index_display.md R92 to R96): the sprite a blit lays on the display in the terms of the statements,
one draw, two equal draws, and the obligations O35 to O38.
-/

namespace Sys2Proof

theorem encode_drw_eq_ofNat (x y : Reg) (n : Nibble) :
    encode (.drw x y n) = BitVec.ofNat 16 (0xD000 + 256 * x.val + 16 * y.val + n.toNat) := by
  apply BitVec.eq_of_toNat_eq
  rw [encode, wordXyn_toNat, BitVec.toNat_ofNat, show (0xD : Nibble).toNat = 0xD from rfl]
  omega

end Sys2Proof

namespace Sys2Proof.Machine

/-! ## One draw (R92) -/

/-- The blit that Dxyn makes. -/
def State.drawn (s : State) (x y : Reg) (n : Nibble) : BlitState :=
  blit (originColumn (s.getV x)) (originRow (s.getV y)) (Memory.bytesFrom s.mem s.i.toNat n.toNat) s.fb

/-- The state that a draw within memory leaves: the display, then VF. -/
def State.afterDraw (s : State) (x y : Reg) (n : Nibble) : State :=
  (s.setFb (s.drawn x y n).fb).setV Config.flagReg (flagByte (s.drawn x y n).coll)

theorem exec_drw_draws (x y : Reg) {n : Nibble} {s : State} (h : s.i.toNat + n.toNat ≤ 4096) :
    exec (.drw x y n) s = .next (s.afterDraw x y n) := by
  rcases execDrw_cases x y n s with ⟨hout, -⟩ | ⟨-, e⟩
  · omega
  · exact e

theorem exec_drw_faults (x y : Reg) {n : Nibble} {s : State} (h : 4096 < s.i.toNat + n.toNat) :
    exec (.drw x y n) s = .next (s.raise .outOfBoundsSprite s.fetchedFrom (encode (.drw x y n))) := by
  rcases execDrw_cases x y n s with ⟨-, e⟩ | ⟨hin, -⟩
  · exact e
  · omega

/-- The sprite bit laid on a pixel, of the blit's arguments and of the state before the draw. -/
theorem spritePixelAt_eq_spriteOver (s : State) (x y : Reg) (n : Nibble) (r : Fin 32) (c : Fin 64) :
    spritePixelAt (originColumn (s.getV x)) (originRow (s.getV y)) (Memory.bytesFrom s.mem s.i.toNat n.toNat) r c =
      Claims.spriteOver s x y n r c := by
  simp only [spritePixelAt, Claims.spriteOver, originColumn, originRow, Nat.mod_mod]
  by_cases h : (r.val + 32 - (s.getV y).toNat % 32) % 32 < n.toNat
  · rw [List.getElem?_eq_getElem (by rw [Memory.length_bytesFrom]; exact h)]
    simp [h]
  · rw [List.getElem?_eq_none (by rw [Memory.length_bytesFrom]; omega)]
    simp [h]

theorem length_spriteBytes (m : Memory) (a : Nat) (n : Nibble) : (Memory.bytesFrom m a n.toNat).length ≤ 32 := by
  have := n.isLt
  rw [Memory.length_bytesFrom]
  omega

/-- Every pixel is flipped by the sprite bit laid on it (R95). -/
theorem State.pixel_drawn (s : State) (x y : Reg) (n : Nibble) (r : Fin 32) (c : Fin 64) :
    Display.pixel (s.drawn x y n).fb r c = (Display.pixel s.fb r c ^^ Claims.spriteOver s x y n r c) := by
  rw [State.drawn, pixel_blit _ _ _ (length_spriteBytes _ _ n), spritePixelAt_eq_spriteOver]

/-- A draw collides when a set sprite bit falls on a lit pixel (R95). -/
theorem State.coll_drawn (s : State) (x y : Reg) (n : Nibble) :
    (s.drawn x y n).coll = true ↔
      ∃ r c, Display.pixel s.fb r c = true ∧ Claims.spriteOver s x y n r c = true := by
  rw [State.drawn, coll_blit _ _ _ (length_spriteBytes _ _ n)]
  simp only [spritePixelAt_eq_spriteOver]

theorem State.afterDraw_vf (s : State) (x y : Reg) (n : Nibble) :
    (s.afterDraw x y n).getV 15 = flagByte (s.drawn x y n).coll :=
  State.getV_setV_same _ Config.flagReg _

theorem State.afterDraw_other (s : State) (x y : Reg) (n : Nibble) {r : Reg} (hr : r ≠ 15) :
    (s.afterDraw x y n).getV r = s.getV r :=
  State.getV_setV_other _ _ (show r ≠ Config.flagReg from hr)

/-- A draw changes VF and the display alone. -/
theorem State.afterDraw_frame (s : State) (x y : Reg) (n : Nibble) :
    s.afterDraw x y n = { s with v := (s.afterDraw x y n).v, fb := (s.afterDraw x y n).fb } := rfl

theorem flagByte_eq_one (b : Bool) : flagByte b = 0x01 ↔ b = true := by
  cases b <;> decide

theorem flagByte_eq_zero (b : Bool) : flagByte b = 0x00 ↔ b = false := by
  cases b <;> decide

/-- VF after a draw, as the two values it can take. -/
theorem State.afterDraw_vf_cases (s : State) (x y : Reg) (n : Nibble) :
    ((s.afterDraw x y n).getV 15 = 0x01 ∧
        ∃ r c, Display.pixel s.fb r c = true ∧ Claims.spriteOver s x y n r c = true) ∨
      ((s.afterDraw x y n).getV 15 = 0x00 ∧
        ¬ ∃ r c, Display.pixel s.fb r c = true ∧ Claims.spriteOver s x y n r c = true) := by
  rw [State.afterDraw_vf, flagByte_eq_one, flagByte_eq_zero, ← State.coll_drawn]
  cases (s.drawn x y n).coll <;> simp

/-- Settles O35: the blit's two laws, pixels and collision, in the terms of the state (R92 to R96). -/
theorem drawXorsTheSpriteOntoTheDisplay : Obligations.DrawXorsTheSpriteOntoTheDisplay := by
  unfold Obligations.DrawXorsTheSpriteOntoTheDisplay
  intro x y n s h
  exact ⟨s.afterDraw x y n, exec_drw_draws x y h, s.pixel_drawn x y n, s.afterDraw_vf_cases x y n,
    fun r hr => s.afterDraw_other x y n hr, s.afterDraw_frame x y n⟩

/-- Settles O36: the draw's bound is tested before anything changes (R36, R92). -/
theorem drawPastTheEndOfMemoryFaults : Obligations.DrawPastTheEndOfMemoryFaults := by
  unfold Obligations.DrawPastTheEndOfMemoryFaults
  intro x y n s h
  rw [exec_drw_faults x y h, encode_drw_eq_ofNat]
  rfl

/-! ## Two equal draws (R96) -/

/-- After a draw with coordinates other than VF the sprite still lies where it lay. -/
theorem State.spriteOver_afterDraw (s : State) {x y : Reg} (n : Nibble) (hx : x ≠ 15) (hy : y ≠ 15) (r : Fin 32)
    (c : Fin 64) : Claims.spriteOver (s.afterDraw x y n) x y n r c = Claims.spriteOver s x y n r c := by
  simp only [Claims.spriteOver, s.afterDraw_other x y n hx, s.afterDraw_other x y n hy]
  rfl

theorem State.fb_afterDraw_twice (s : State) {x y : Reg} (n : Nibble) (hx : x ≠ 15) (hy : y ≠ 15) :
    ((s.afterDraw x y n).afterDraw x y n).fb = s.fb := by
  apply Display.ext_pixel
  intro r c
  calc Display.pixel ((s.afterDraw x y n).drawn x y n).fb r c
      = (Display.pixel (s.drawn x y n).fb r c ^^ Claims.spriteOver (s.afterDraw x y n) x y n r c) :=
        (s.afterDraw x y n).pixel_drawn x y n r c
    _ = ((Display.pixel s.fb r c ^^ Claims.spriteOver s x y n r c) ^^ Claims.spriteOver s x y n r c) := by
        rw [s.spriteOver_afterDraw n hx hy, s.pixel_drawn]
    _ = Display.pixel s.fb r c := by rw [Bool.xor_assoc, Bool.xor_self, Bool.xor_false]

/-- The second of two equal draws collides exactly where the first has lit a pixel. -/
theorem State.coll_afterDraw_drawn (s : State) {x y : Reg} (n : Nibble) (hx : x ≠ 15) (hy : y ≠ 15) :
    ((s.afterDraw x y n).drawn x y n).coll = true ↔
      ∃ r c, Display.pixel s.fb r c = false ∧ Claims.spriteOver s x y n r c = true := by
  rw [State.coll_drawn]
  have hpix : ∀ r c, Display.pixel (s.afterDraw x y n).fb r c =
      (Display.pixel s.fb r c ^^ Claims.spriteOver s x y n r c) := s.pixel_drawn x y n
  simp only [s.spriteOver_afterDraw n hx hy, hpix]
  refine exists_congr fun r => exists_congr fun c => and_congr_left fun hsprite => ?_
  rw [hsprite, Bool.xor_true, Bool.not_eq_true']

/-- Settles O37: flipping the same pixels twice restores them, and the second draw finds a pixel lit under the sprite exactly
where the first found it unlit (R96). -/
theorem drawingTwiceRestoresTheDisplay : Obligations.DrawingTwiceRestoresTheDisplay := by
  unfold Obligations.DrawingTwiceRestoresTheDisplay
  intro x y n s hx hy h
  refine ⟨s.afterDraw x y n, (s.afterDraw x y n).afterDraw x y n, exec_drw_draws x y h, exec_drw_draws x y h,
    s.fb_afterDraw_twice n hx hy, ?_⟩
  rw [State.afterDraw_vf, flagByte_eq_one, s.coll_afterDraw_drawn n hx hy]

/-! ## S6 as it is written -/

/-- A loaded core with one sprite bit, at the pixel (0, 0), which is lit. -/
def litUnderSprite : State :=
  { State.reset with
    i := 0x0300, mem := [(0x300, 0x80)], fb := Display.setPixel Display.clear 0 0 true, loaded := true }

/-- The one sprite bit of the counterexample falls on the pixel (0, 0). -/
theorem spriteOver_litUnderSprite {r : Fin 32} {c : Fin 64} (h : Claims.spriteOver litUnderSprite 0 1 1 r c = true) :
    r = 0 ∧ c = 0 := by
  have hx : (litUnderSprite.getV 0).toNat = 0 := by decide
  have hy : (litUnderSprite.getV 1).toNat = 0 := by decide
  have hn : (1 : Nibble).toNat = 1 := rfl
  have hbyte : ∀ k, k < 8 → (Memory.read litUnderSprite.mem 0x300).getLsbD (7 - k) = true → k = 0 := by decide
  simp only [Claims.spriteOver, hx, hy, hn, Bool.and_eq_true, decide_eq_true_eq] at h
  obtain ⟨⟨hrow, hcol⟩, hbit⟩ := h
  have hr : (r.val + 32 - 0 % 32) % 32 = 0 := by omega
  rw [hr] at hbit
  have hc := hbyte _ hcol hbit
  have hrlt := r.isLt
  have hclt := c.isLt
  exact ⟨Fin.ext (show r.val = 0 by omega), Fin.ext (show c.val = 0 by omega)⟩

/-- Refutes O38: the sprite's one bit falls on a lit pixel; the first draw clears it, and the second only sets it, which is
no collision by R95's blit. -/
theorem not_secondDrawAlwaysReportsACollision : ¬ Obligations.SecondDrawAlwaysReportsACollision := by
  unfold Obligations.SecondDrawAlwaysReportsACollision
  intro h
  obtain ⟨t, u, ht, hu, -, hvf⟩ :=
    drawingTwiceRestoresTheDisplay 0 1 1 litUnderSprite (by decide) (by decide) (by decide)
  have hcoll : u.getV 15 = 0x01 :=
    h 0 1 1 litUnderSprite t u (by decide) (by decide) (by decide) ⟨0, by decide, by decide⟩ ht hu
  obtain ⟨r, c, hdark, hsprite⟩ := hvf.mp hcoll
  obtain ⟨rfl, rfl⟩ := spriteOver_litUnderSprite hsprite
  have hlit : Display.pixel litUnderSprite.fb 0 0 = true := by
    rw [litUnderSprite, Display.pixel_setPixel, if_pos ⟨rfl, rfl⟩]
  rw [hlit] at hdark
  cases hdark

end Sys2Proof.Machine
end

section
/-!
PROOFS. What the instruction set leaves alone (spec/10_state.md R10 to R23, spec/20_memory.md R39): the instructions that touch
general registers and `PC` alone, everything an instruction can do, and the obligations O39 to O41 and O43 to O45.
-/

namespace Sys2Proof

/-- The instructions that read and write general registers and `PC` alone. -/
def Instr.isLocal : Instr → Bool
  | .cls | .ret | .call _ | .ldINnn _ | .drw _ _ _ => false
  | .sys _ | .jp _ | .seVxKk _ _ | .sneVxKk _ _ | .seVxVy _ _ | .ldVxKk _ _ | .addVxKk _ _ | .ldVxVy _ _ | .or _ _
  | .and _ _ | .xor _ _ | .addVxVy _ _ | .sub _ _ | .shr _ _ | .subn _ _ | .shl _ _ => true

end Sys2Proof

namespace Sys2Proof.Machine

/-! ## What an instruction reads and writes -/

/-- The state `u` with the general registers and `PC` of `s`. -/
def State.withLocal (u s : State) : State := { u with v := s.v, pc := s.pc }

/-- The state `u` with everything of `s` that instructions other than 00E0, Annn and Dxyn read or write. -/
def State.withCore (u s : State) : State :=
  { u with v := s.v, pc := s.pc, sp := s.sp, stk := s.stk, fault := s.fault, report := s.report }

/-- A local instruction makes the same writes in every state with the same general registers and `PC`. -/
theorem exec_withLocal {i : Instr} (hi : i.isLocal = true) {s t : State} (h : exec i s = .next t) (u : State) :
    exec i (u.withLocal s) = .next (u.withLocal t) := by
  cases i with
  | cls | ret | call nnn | ldINnn nnn | drw x y n => cases hi
  | seVxKk x kk => rw [exec_seVxKk] at h ⊢; cases h; rfl
  | sneVxKk x kk => rw [exec_sneVxKk] at h ⊢; cases h; rfl
  | seVxVy x y => rw [exec_seVxVy] at h ⊢; cases h; rfl
  | _ => cases h; rfl

/-- A local instruction leaves everything but general registers and `PC`. -/
theorem exec_local_frame {i : Instr} (hi : i.isLocal = true) {s t : State} (h : exec i s = .next t) :
    t = s.withLocal t :=
  Host.Outcome.next.inj (h.symm.trans (exec_withLocal hi h s))

/-- Everything an instruction can do to a state: the local writes, the one write of 00E0 or Annn, the pop, the push, the
draw, or a fatal fault of its own that changes nothing else. -/
inductive Effect (i : Instr) (s : State) : State → Prop
  | localWrites (t : State) (hi : i.isLocal = true) : Effect i s (s.withLocal t)
  | clear (hi : i = .cls) : Effect i s (s.setFb Display.clear)
  | index (nnn : Addr12) (hi : i = .ldINnn nnn) : Effect i s (s.setI (addrOperand nnn))
  | pop (hi : i = .ret) (hsp : 0 < s.sp.val) :
    Effect i s { s with sp := ⟨s.sp.val - 1, by omega⟩, pc := s.stk[s.sp.val - 1] }
  | push (nnn : Addr12) (hi : i = .call nnn) (hsp : s.sp.val < 16) :
    Effect i s
      { s with stk := s.stk.set s.sp.val s.pc, sp := ⟨s.sp.val + 1, by omega⟩, pc := addrOperand nnn }
  | draw (x y : Reg) (n : Nibble) (hi : i = .drw x y n) : Effect i s (s.afterDraw x y n)
  | fault (c : FatalCause) (hc : c ≠ .outOfBoundsFetch) : Effect i s (s.raise c s.fetchedFrom (encode i))

/-- Every instruction has one of the effects. -/
theorem exec_effect {i : Instr} {s t : State} (h : exec i s = .next t) : Effect i s t := by
  cases i with
  | cls => cases h; exact .clear rfl
  | ldINnn nnn => cases h; exact .index nnn rfl
  | ret =>
    rcases execRet_cases s with ⟨hsp, -⟩ | ⟨hsp, -⟩
    · rw [exec_ret_faults hsp] at h; cases h; exact .fault .stackUnderflow (by decide)
    · rw [exec_ret_pops hsp] at h; cases h; exact .pop rfl hsp
  | call nnn =>
    rcases execCall_cases nnn s with ⟨hsp, -⟩ | ⟨hsp, -⟩
    · rw [exec_call_faults nnn hsp] at h; cases h; exact .fault .stackOverflow (by decide)
    · rw [exec_call_pushes nnn hsp] at h; cases h; exact .push nnn rfl hsp
  | drw x y n =>
    rcases execDrw_cases x y n s with ⟨hout, -⟩ | ⟨hin, -⟩
    · rw [exec_drw_faults x y hout] at h; cases h; exact .fault .outOfBoundsSprite (by decide)
    · rw [exec_drw_draws x y hin] at h; cases h; exact .draw x y n rfl
  | _ => rw [exec_local_frame rfl h]; exact .localWrites t rfl

/-- What every instruction leaves: the timers, the draws counter, `LOADED` and memory. -/
theorem exec_leaves {i : Instr} {s t : State} (h : exec i s = .next t) :
    t.dt = s.dt ∧ t.st = s.st ∧ t.draws = s.draws ∧ t.loaded = s.loaded ∧ t.mem = s.mem := by
  cases exec_effect h with
  | _ => exact ⟨rfl, rfl, rfl, rfl, rfl⟩

/-- The instructions other than 00E0, Annn and Dxyn do the same in every state that has what they read. -/
theorem exec_withCore {i : Instr} (hcls : i ≠ .cls) (hI : ∀ nnn, i ≠ .ldINnn nnn) (hdrw : ∀ x y n, i ≠ .drw x y n)
    {s t : State} (h : exec i s = .next t) (u : State) : exec i (u.withCore s) = .next (u.withCore t) := by
  cases i with
  | cls => exact absurd rfl hcls
  | ldINnn nnn => exact absurd rfl (hI nnn)
  | drw x y n => exact absurd rfl (hdrw x y n)
  | ret =>
    rcases execRet_cases s with ⟨hsp, -⟩ | ⟨hsp, -⟩
    · rw [exec_ret_faults hsp] at h; cases h; exact exec_ret_faults (s := u.withCore s) hsp
    · rw [exec_ret_pops hsp] at h; cases h; exact exec_ret_pops (s := u.withCore s) hsp
  | call nnn =>
    rcases execCall_cases nnn s with ⟨hsp, -⟩ | ⟨hsp, -⟩
    · rw [exec_call_faults nnn hsp] at h; cases h; exact exec_call_faults (s := u.withCore s) nnn hsp
    · rw [exec_call_pushes nnn hsp] at h; cases h; exact exec_call_pushes (s := u.withCore s) nnn hsp
  | _ =>
    have hlocal := exec_withLocal rfl h (u.withCore s)
    rw [exec_local_frame rfl h] at hlocal ⊢
    exact hlocal

/-- The instructions other than 00E0, Annn and Dxyn leave everything else. -/
theorem exec_core_frame {i : Instr} (hcls : i ≠ .cls) (hI : ∀ nnn, i ≠ .ldINnn nnn) (hdrw : ∀ x y n, i ≠ .drw x y n)
    {s t : State} (h : exec i s = .next t) : t = s.withCore t :=
  Host.Outcome.next.inj (h.symm.trans (exec_withCore hcls hI hdrw h s))

/-! ## The index register (R13) -/

/-- No instruction but Annn writes `I`. -/
theorem exec_keeps_index {i : Instr} (hI : ∀ nnn, i ≠ .ldINnn nnn) {s t : State} (h : exec i s = .next t) :
    t.i = s.i := by
  cases exec_effect h with
  | index nnn hi => exact absurd hi (hI nnn)
  | _ => rfl

/-- Annn leaves `I` at most 0xFFF, and every other instruction leaves it. -/
theorem exec_index_le {i : Instr} {s t : State} (h : exec i s = .next t) (hs : s.i.toNat ≤ 0x0FFF) :
    t.i.toNat ≤ 0x0FFF := by
  by_cases hI : ∃ nnn, i = .ldINnn nnn
  · obtain ⟨nnn, rfl⟩ := hI
    rw [exec_ldINnn] at h
    cases h
    rw [State.setI_i, addrOperand_toNat]
    omega
  · rw [exec_keeps_index (fun nnn e => hI ⟨nnn, e⟩) h]
    exact hs

/-- Settles O39: Annn alone writes `I`, and of the others Dxyn alone reads it (R13). -/
theorem onlyAnnnWritesAndOnlyDxynReadsI : Obligations.OnlyAnnnWritesAndOnlyDxynReadsI := by
  unfold Obligations.OnlyAnnnWritesAndOnlyDxynReadsI
  refine ⟨fun i s t h hI => exec_keeps_index hI h, ?_, ?_, fun nnn s w => rfl, fun i s t h => exec_index_le h⟩
  · intro nnn s t h
    rw [exec_ldINnn] at h
    cases h
    exact addrOperand_eq_ofNat nnn
  · intro i s t w h hI hdrw
    by_cases hcls : i = .cls
    · subst hcls
      cases h
      rfl
    · have hcore := exec_withCore hcls hI hdrw h { s with i := w }
      rw [exec_core_frame hcls hI hdrw h] at hcore ⊢
      exact hcore

/-! ## The general registers (R10, R11) -/

/-- A local instruction leaves every register that it may not write. -/
theorem exec_local_keeps_register {i : Instr} (hi : i.isLocal = true) {s t : State} (h : exec i s = .next t) {r : Reg}
    (hr : r ∉ Claims.mayWrite i) : t.getV r = s.getV r := by
  have hflag : ∀ {x : Reg}, r ∉ [x, 15] → r ≠ x ∧ r ≠ 15 := by simp
  cases i with
  | cls | ret | call nnn | ldINnn nnn | drw x y n => cases hi
  | sys nnn | jp nnn => cases h; rfl
  | seVxKk x kk => rw [exec_seVxKk] at h; cases h; rfl
  | sneVxKk x kk => rw [exec_sneVxKk] at h; cases h; rfl
  | seVxVy x y => rw [exec_seVxVy] at h; cases h; rfl
  | addVxVy x y | sub x y | shr x y | subn x y | shl x y =>
    cases h
    obtain ⟨hx, h15⟩ := hflag hr
    exact (s.writeFlagged_leaves_rest x _).1 r hx h15
  | _ x => cases h; exact s.getV_setV_other _ (fun e => hr (List.mem_singleton.mpr e))

/-- Every instruction leaves every register that it may not write. -/
theorem exec_keeps_register {i : Instr} {s t : State} (h : exec i s = .next t) {r : Reg}
    (hr : r ∉ Claims.mayWrite i) : t.getV r = s.getV r := by
  cases exec_effect h with
  | localWrites u hi => exact exec_local_keeps_register hi h hr
  | draw x y n hi =>
    subst hi
    exact s.afterDraw_other x y n (fun e => hr (List.mem_singleton.mpr e))
  | _ => rfl

/-- Settles O41: local instructions write the registers of R10's table, a draw VF, and the others none (R10). -/
theorem instructionsWriteOnlyTheirRegisters : Obligations.InstructionsWriteOnlyTheirRegisters := by
  unfold Obligations.InstructionsWriteOnlyTheirRegisters
  exact fun i s t h r hr => exec_keeps_register h hr

/-! ## VF (R11) -/

/-- A lit pixel is turned off by a draw exactly where a set sprite bit falls on it. -/
theorem State.turnedOff_iff_collides (s : State) (x y : Reg) (n : Nibble) :
    (∃ r c, Display.pixel s.fb r c = true ∧ Display.pixel (s.afterDraw x y n).fb r c = false) ↔
      ∃ r c, Display.pixel s.fb r c = true ∧ Claims.spriteOver s x y n r c = true := by
  have hpix : ∀ r c, Display.pixel (s.afterDraw x y n).fb r c =
      (Display.pixel s.fb r c ^^ Claims.spriteOver s x y n r c) := s.pixel_drawn x y n
  refine exists_congr fun r => exists_congr fun c => and_congr_right fun hlit => ?_
  rw [hpix, hlit, Bool.true_xor, Bool.not_eq_false']

/-- Settles O40: the flag that each flag-writing instruction computes stands in VF after its second write, a draw's flag says
whether it turned a pixel off, and the others may not write VF (R11). -/
theorem flagWritersAndNoOthersWriteVf : Obligations.FlagWritersAndNoOthersWriteVf := by
  unfold Obligations.FlagWritersAndNoOthersWriteVf
  refine ⟨?_, ?_, ?_, ?_, ?_, ?_, fun i s t h hvf => exec_keeps_register h hvf⟩
  · intro x y s t hx h
    cases h
    rw [s.getV_writeFlagged_flag _ hx, addWithCarry_flag, flagByte_decide]
    rfl
  · intro x y s t hx h
    cases h
    rw [s.getV_writeFlagged_flag _ hx, subNoBorrow_flag, flagByte_decide]
    rfl
  · intro x y s t hx h
    cases h
    exact s.getV_writeFlagged_flag _ hx
  · intro x y s t hx h
    cases h
    rw [s.getV_writeFlagged_flag _ hx, subNoBorrow_flag, flagByte_decide]
    rfl
  · intro x y s t hx h
    cases h
    exact s.getV_writeFlagged_flag _ hx
  · intro x y n s t hin h
    rw [exec_drw_draws x y hin] at h
    cases h
    rw [State.turnedOff_iff_collides]
    exact s.afterDraw_vf_cases x y n

/-! ## The display (R20) -/

/-- A `Load` that answers has written the image into the memory of an unloaded core, or nothing (R122). -/
theorem load_next_cases {bytes : List Byte} {s t : State} {r : LoadAnswer} (h : load bytes s = .next (r, t)) :
    t = s ∨ (bytes.length ≤ 0xE00 ∧ t.mem = Memory.withImage s.mem bytes ∧ t = { s with mem := t.mem, loaded := true }) := by
  rcases load_cases bytes s with ⟨-, e⟩ | ⟨-, -, e⟩ | ⟨-, hle, e⟩ <;> rw [e] at h
  · cases h
  · exact .inl (Prod.mk.inj (Host.Outcome.next.inj h)).2.symm
  · generalize Memory.withImage s.mem bytes = m at h ⊢
    cases h
    exact .inr ⟨hle, rfl, rfl⟩

/-- Settles O43: the instructions other than 00E0 and Dxyn neither read nor write the display, a draw writes no register but VF,
and of the host's calls `Reset` alone clears it (R20). -/
theorem displayChangesByDrawClearAndResetAlone : Obligations.DisplayChangesByDrawClearAndResetAlone := by
  unfold Obligations.DisplayChangesByDrawClearAndResetAlone
  refine ⟨?_, ?_, ?_, fun s r c => Display.pixel_clear r c⟩
  · intro i s t d h hcls hdrw
    by_cases hI : ∃ nnn, i = .ldINnn nnn
    · obtain ⟨nnn, rfl⟩ := hI
      cases h
      exact ⟨rfl, rfl⟩
    · have hI' : ∀ nnn, i ≠ .ldINnn nnn := fun nnn e => hI ⟨nnn, e⟩
      have hcore := exec_withCore hcls hI' hdrw h { s with fb := d }
      rw [exec_core_frame hcls hI' hdrw h] at hcore ⊢
      exact ⟨rfl, hcore⟩
  · intro x y n s t h r hr
    exact exec_keeps_register h (fun e => hr (List.mem_singleton.mp e))
  · intro call s t ans h hstep hreset
    cases call with
    | reset => exact absurd rfl hreset
    | step a b => exact absurd rfl (hstep a b)
    | readFrameBuffer => cases h; rfl
    | soundGate => cases h; rfl
    | load bytes =>
      obtain ⟨r, hload⟩ := transact_load h
      rcases load_next_cases hload with rfl | ⟨-, -, e⟩
      · rfl
      · rw [e]

/-! ## The stack (R17) -/

/-- Only CALL and RET touch the stack. -/
theorem exec_keeps_stack {i : Instr} (hret : i ≠ .ret) (hcall : ∀ nnn, i ≠ .call nnn) {s t : State}
    (h : exec i s = .next t) : t.sp = s.sp ∧ t.stk = s.stk := by
  cases exec_effect h with
  | pop hi => exact absurd hi hret
  | push nnn hi => exact absurd hi (hcall nnn)
  | _ => exact ⟨rfl, rfl⟩

/-- Settles O44: a pop and a push are all that the instruction set does to the stack (R17). -/
theorem stackChangesByCallAndReturnAlone : Obligations.StackChangesByCallAndReturnAlone := by
  unfold Obligations.StackChangesByCallAndReturnAlone
  refine ⟨fun i s t h hret hcall => exec_keeps_stack hret hcall h, ?_, ?_⟩
  · intro s t h
    rcases execRet_cases s with ⟨hsp, -⟩ | ⟨hsp, -⟩
    · rw [exec_ret_faults hsp] at h
      cases h
      rw [State.raise_stk, State.raise_sp, hsp]
      exact ⟨rfl, rfl⟩
    · rw [exec_ret_pops hsp] at h
      cases h
      exact ⟨rfl, rfl⟩
  · intro nnn s t h
    rcases execCall_cases nnn s with ⟨hsp, -⟩ | ⟨hsp, -⟩
    · rw [exec_call_faults nnn hsp] at h
      cases h
      rw [State.raise_stk, State.raise_sp, hsp]
      exact ⟨fun j hj hne => rfl, rfl⟩
    · rw [exec_call_pushes nnn hsp] at h
      cases h
      refine ⟨fun j hj hne => ?_, ?_⟩
      · show (s.stk.set s.sp.val s.pc)[j] = s.stk[j]
        rw [getElem_stk_set s.stk hsp hj, if_neg hne]
      · show s.sp.val + 1 = min 16 (s.sp.val + 1)
        omega

/-! ## Timers and status (R22, R23, R112) -/

/-- Settles O45: an instruction leaves the timers and `LOADED`, and it either leaves `FAULT` and the report or raises one of
its own fatal causes (R103, R112). -/
theorem instructionsLeaveTimersAndStatusAlone : Obligations.InstructionsLeaveTimersAndStatusAlone := by
  unfold Obligations.InstructionsLeaveTimersAndStatusAlone
  intro i s t h
  obtain ⟨hdt, hst, hdraws, hloaded, -⟩ := exec_leaves h
  refine ⟨hdt, hst, hdraws, hloaded, ?_⟩
  cases exec_effect h with
  | fault c hc => exact .inr ⟨c, hc, rfl, rfl⟩
  | _ => exact .inl ⟨rfl, rfl⟩

end Sys2Proof.Machine
end

section
/-!
PROOFS. The step cycle (spec/30_encoding.md R47, spec/60_exceptions.md R100 to R110): what a step of a running core can do, what
every step leaves, the halted core, and the obligations O8 to O14, O42, O46 and O47.
-/

namespace Sys2Proof.Machine

/-! ## A step of a running core -/

/-- The word that a step at `PC` fetches. -/
abbrev State.opAtPc (s : State) : Word := BitVec.ofNat 16 s.wordAtPc

/-- The state on which a step of a running core executes: the timers updated, the word at `PC` fetched. -/
def State.atExecute (a b : Bool) (s : State) : State := (State.timerUpdate a b s).fetched s.opAtPc

theorem runCycle_of_running {a b : Bool} {s : State} (h : s.running = true) :
    runCycle a b s = fetchDecodeExecute (State.timerUpdate a b s) := by
  obtain ⟨hl, hf⟩ := State.running_iff.mp h
  rcases runCycle_cases a b s with ⟨hl', -⟩ | ⟨-, hf', -⟩ | ⟨-, -, e⟩
  · rw [hl] at hl'; cases hl'
  · exact absurd hf hf'
  · exact e

/-- Everything a step of a running core can do, in R102's order. -/
theorem runCycle_running_cases {s : State} (h : s.running = true) (a b : Bool) :
    (4094 ≤ s.pc.toNat ∧ runCycle a b s = .next ((State.timerUpdate a b s).raise .outOfBoundsFetch s.pc 0x0000)) ∨
    (s.pc.toNat < 4094 ∧ ∃ why, decodeWord s.opAtPc = .unknown why ∧
      runCycle a b s = .next ((s.atExecute a b).reportUnknown s.pc s.opAtPc)) ∨
    (s.pc.toNat < 4094 ∧ ∃ i, decodeWord s.opAtPc = .instr i ∧ runCycle a b s = exec i (s.atExecute a b)) := by
  rw [runCycle_of_running h]
  exact fetchDecodeExecute_cases (State.timerUpdate a b s)

/-- Settles O8: the third case of a running core's step (R47). -/
theorem stepRunsTheDecodedInstruction : Obligations.StepRunsTheDecodedInstruction := by
  unfold Obligations.StepRunsTheDecodedInstruction
  intro a b s i hrun hpc hd
  obtain ⟨hl, hf⟩ := State.running_iff.mp hrun
  exact ⟨runCycle_of_instr hl hf hpc hd, runCycle_of_instr hl hf hpc hd⟩

/-- Settles O9: the second case of a running core's step (R52, R104). -/
theorem unknownOpcodeIsReportedAndSkipped : Obligations.UnknownOpcodeIsReportedAndSkipped := by
  unfold Obligations.UnknownOpcodeIsReportedAndSkipped
  intro a b s why hrun hpc hd
  rcases runCycle_running_cases hrun a b with ⟨hge, -⟩ | ⟨-, -, -, e⟩ | ⟨-, i, hd', -⟩
  · omega
  · exact e
  · rw [hd] at hd'; cases hd'

/-- Settles O10: the first case of a running core's step (R33, R103). -/
theorem fetchAtOrAboveTheLimitFaults : Obligations.FetchAtOrAboveTheLimitFaults := by
  unfold Obligations.FetchAtOrAboveTheLimitFaults
  intro a b s hrun hpc
  rcases runCycle_running_cases hrun a b with ⟨-, e⟩ | ⟨hlt, -⟩ | ⟨hlt, -⟩
  · exact e
  · omega
  · omega

/-! ## The halted and the unloaded core (R105, R124) -/

theorem step_of_halted {s : State} (hl : s.loaded = true) (hf : s.fault ≠ 0) : step s = .next s.haltedStep := by
  rcases runCycle_cases (Config.dueDelay s.draws) (Config.dueSound s.draws) s with ⟨hl', -⟩ | ⟨-, -, e⟩ | ⟨-, hf', -⟩
  · rw [hl] at hl'; cases hl'
  · exact e
  · exact absurd hf' hf

/-- Settles O11: the halted step changes the report alone, so the next one finds the same core and reports the same (R105). -/
theorem haltedCoreStaysHalted : Obligations.HaltedCoreStaysHalted := by
  unfold Obligations.HaltedCoreStaysHalted
  intro k s hl hf
  have hstep := step_of_halted hl hf
  induction k with
  | zero => exact core_run_succ hstep
  | succ k ih => exact run_then_step Sys2Proof.core ih (step_of_halted (s := s.haltedStep) hl hf)

/-- A loaded core answers every step. -/
theorem runCycle_next_of_loaded {s : State} (hl : s.loaded = true) (a b : Bool) : ∃ t, runCycle a b s = .next t := by
  rcases runCycle_cases a b s with ⟨hl', -⟩ | ⟨-, -, e⟩ | ⟨-, hf, -⟩
  · rw [hl] at hl'; cases hl'
  · exact ⟨_, e⟩
  · rcases runCycle_running_cases (State.running_iff.mpr ⟨hl, hf⟩) a b with ⟨-, e⟩ | ⟨-, _, -, e⟩ | ⟨-, i, -, e⟩
    · exact ⟨_, e⟩
    · exact ⟨_, e⟩
    · rw [e]; exact exec_next i _

theorem runCycle_refused_of_unloaded {s : State} (hl : s.loaded = false) (a b : Bool) :
    runCycle a b s = .refused .stepUnloaded := if_pos hl

/-- Settles O12: each case of a loaded core's step answers, and the unloaded core's is the refusal (R30, R124). -/
theorem stepAnswersExactlyWhenLoaded : Obligations.StepAnswersExactlyWhenLoaded := by
  unfold Obligations.StepAnswersExactlyWhenLoaded
  intro a b s
  exact ⟨fun hl => ⟨runCycle_refused_of_unloaded hl a b, runCycle_refused_of_unloaded hl _ _⟩,
    fun hl => ⟨runCycle_next_of_loaded hl a b, runCycle_next_of_loaded hl _ _⟩⟩

/-! ## The report (R100 to R102) -/

/-- At the execute stage the address fetched from is the `PC` before the step. -/
theorem State.fetchedFrom_atExecute (a b : Bool) (s : State) : (s.atExecute a b).fetchedFrom = s.pc :=
  BitVec.add_sub_cancel s.pc 2

/-- Settles O13: the code of each case of a running core's step, and of what the instruction raises in the third; the word of
an instruction is the one it was decoded from (R100 to R102). -/
theorem everyStepReportsItsCause : Obligations.EveryStepReportsItsCause := by
  unfold Obligations.EveryStepReportsItsCause
  intro a b s t hrun h
  obtain ⟨-, hf⟩ := State.running_iff.mp hrun
  rcases runCycle_running_cases hrun a b with ⟨hpc, e⟩ | ⟨hpc, why, hd, e⟩ | ⟨hpc, i, hd, e⟩ <;> rw [e] at h
  · cases h
    refine ⟨_, rfl, rfl, ?_⟩
    simp [FatalCause.code, hpc, Nat.not_lt.mpr hpc]
  · cases h
    refine ⟨_, rfl, rfl, ?_⟩
    simp [unknownOpcodeCode, hpc, Nat.not_le.mpr hpc, hd, State.atExecute, hf]
  · obtain ⟨henc, -⟩ := encodeOfDecodeIsTheWord _ _ hd
    rcases exec_raises h with ⟨h0, hr, hcall, hret, hdrw⟩ | ⟨nnn, rfl, hsp, rfl⟩ | ⟨rfl, hsp, rfl⟩ |
      ⟨x, y, n, rfl, hout, rfl⟩
    · have hquiet : (s.sp = 16 → ∀ nnn, i ≠ .call nnn) ∧ (s.sp = 0 → i ≠ .ret) ∧
          (∀ x y n, i = .drw x y n → s.i.toNat + n.toNat ≤ 4096) ∧ (s.atExecute a b).fault = 0#3 :=
        ⟨fun hsp nnn e => hcall nnn e hsp, fun hsp e => hret e hsp, hdrw, hf⟩
      refine ⟨_, hr, rfl, ?_⟩
      simpa [okCode, hpc, Nat.not_le.mpr hpc, hd, h0] using hquiet
    · refine ⟨_, rfl, s.fetchedFrom_atExecute a b, ?_⟩
      simp [FatalCause.code, hpc, Nat.not_le.mpr hpc, hd, henc, show s.sp = 16 from hsp]
    · refine ⟨_, rfl, s.fetchedFrom_atExecute a b, ?_⟩
      simp [FatalCause.code, hpc, Nat.not_le.mpr hpc, hd, henc, show s.sp = 0 from hsp]
    · refine ⟨_, rfl, s.fetchedFrom_atExecute a b, ?_⟩
      simp [FatalCause.code, hpc, Nat.not_le.mpr hpc, hd, henc,
        show 4096 < s.i.toNat + n.toNat from hout]

/-! ## What a step leaves -/

/-- A step of a running core makes the timer update, once, and leaves `LOADED` and memory. -/
theorem runCycle_running_leaves {a b : Bool} {s t : State} (hrun : s.running = true) (h : runCycle a b s = .next t) :
    t.dt = countDown a s.dt ∧ t.st = countDown b s.st ∧ t.loaded = s.loaded ∧ t.mem = s.mem := by
  rcases runCycle_running_cases hrun a b with ⟨-, e⟩ | ⟨-, why, -, e⟩ | ⟨-, i, -, e⟩ <;> rw [e] at h
  · cases h; exact ⟨rfl, rfl, rfl, rfl⟩
  · cases h; exact ⟨rfl, rfl, rfl, rfl⟩
  · obtain ⟨hdt, hst, -, hloaded, hmem⟩ := exec_leaves h
    exact ⟨hdt, hst, hloaded, hmem⟩

/-- Settles O14: the timer update's values stand after the step, and each is the count-down of R110. -/
theorem timersCountDownOncePerStep : Obligations.TimersCountDownOncePerStep := by
  unfold Obligations.TimersCountDownOncePerStep
  intro a b s t hrun h
  obtain ⟨hdt, hst, -, -⟩ := runCycle_running_leaves hrun h
  rw [hdt, hst, countDown_toNat, countDown_toNat]
  exact ⟨rfl, rfl⟩

/-- A step that answers is one of a halted core or one of a running core. -/
theorem runCycle_next_cases {a b : Bool} {s t : State} (h : runCycle a b s = .next t) :
    t = s.haltedStep ∨ s.running = true := by
  rcases runCycle_cases a b s with ⟨-, e⟩ | ⟨-, -, e⟩ | ⟨hl, hf, -⟩
  · rw [e] at h; cases h
  · rw [e] at h; cases h; exact .inl rfl
  · exact .inr (State.running_iff.mpr ⟨hl, hf⟩)

theorem runCycle_keeps_memory {a b : Bool} {s t : State} (h : runCycle a b s = .next t) : t.mem = s.mem := by
  rcases runCycle_next_cases h with rfl | hrun
  · rfl
  · obtain ⟨-, -, -, hmem⟩ := runCycle_running_leaves hrun h
    exact hmem

/-- A `Load` that answers leaves every byte outside the image and the font. -/
theorem load_keeps_outside {bytes : List Byte} {s t : State} {r : LoadAnswer} (h : load bytes s = .next (r, t)) {a : Nat}
    (himage : a < 0x200 ∨ 0x200 + bytes.length ≤ a) (hfont : a < 0x050 ∨ 0x0A0 ≤ a) :
    Memory.read t.mem a = Memory.read s.mem a := by
  rcases load_next_cases h with rfl | ⟨-, hmem, -⟩
  · rfl
  · rw [hmem, Memory.read_withImage_outside s.mem bytes a himage hfont]

/-- Settles O42: no instruction writes memory, so no step does; `Load` writes its two runs of bytes, and `Reset` lists no
byte (R39). -/
theorem memoryIsWrittenByLoadAndResetAlone : Obligations.MemoryIsWrittenByLoadAndResetAlone := by
  unfold Obligations.MemoryIsWrittenByLoadAndResetAlone
  constructor
  · intro i s t h a
    obtain ⟨-, -, -, -, hmem⟩ := exec_leaves h
    rw [hmem]
  · intro call s t ans h
    cases call with
    | reset => cases h; exact Memory.read_nil
    | load bytes =>
      intro a himage hfont
      obtain ⟨r, hload⟩ := transact_load h
      exact load_keeps_outside hload himage hfont
    | step a b =>
      obtain ⟨hcycle, -⟩ := transact_step h
      intro addr
      rw [runCycle_keeps_memory hcycle]
    | readFrameBuffer => cases h; exact fun _ => rfl
    | soundGate => cases h; exact fun _ => rfl

/-! ## Precise faults (R103) -/

/-- Settles O46: of the cases of a running core's step, those that leave `FAULT` not 0 are the raises, on the state before
the fetch or at the execute stage. -/
theorem fatalFaultsArePrecise : Obligations.FatalFaultsArePrecise := by
  unfold Obligations.FatalFaultsArePrecise
  intro a b s t hrun h hfault
  obtain ⟨-, hf⟩ := State.running_iff.mp hrun
  rcases runCycle_running_cases hrun a b with ⟨hpc, e⟩ | ⟨hpc, why, hd, e⟩ | ⟨hpc, i, hd, e⟩ <;> rw [e] at h
  · cases h
    rw [if_pos hpc]
    rfl
  · cases h
    exact absurd hf hfault
  · rw [if_neg (Nat.not_le.mpr hpc)]
    rcases exec_raises h with ⟨h0, -⟩ | ⟨nnn, -, -, rfl⟩ | ⟨-, -, rfl⟩ | ⟨x, y, n, -, -, rfl⟩
    · exact absurd (h0.trans hf) hfault
    all_goals rfl

/-! ## `PC` after a step (R15) -/

/-- `PC` after an instruction, of the state before its fetch. -/
theorem exec_pc {i : Instr} {a b : Bool} {s t : State} (h : exec i (s.atExecute a b) = .next t) :
    t.pc = Claims.pcAfter s i := by
  have hskip : s.pc + 2 + 2 = s.pc + 4 := BitVec.add_assoc s.pc 2 2
  cases i with
  | jp nnn => cases h; exact addrOperand_eq_ofNat nnn
  | call nnn =>
    rw [Claims.pcAfter]
    rcases execCall_cases nnn (s.atExecute a b) with ⟨hsp, -⟩ | ⟨hsp, -⟩
    · rw [exec_call_faults nnn hsp] at h
      cases h
      rw [if_pos (show s.sp = 16 from hsp)]
      rfl
    · rw [exec_call_pushes nnn hsp] at h
      cases h
      rw [if_neg (fun e : s.sp = 16 => absurd hsp (by rw [show (s.atExecute a b).sp = s.sp from rfl, e]; decide))]
      exact addrOperand_eq_ofNat nnn
  | ret =>
    rw [Claims.pcAfter]
    rcases execRet_cases (s.atExecute a b) with ⟨hsp, -⟩ | ⟨hsp, -⟩
    · rw [exec_ret_faults hsp] at h
      cases h
      rw [if_pos (show s.sp = 0 from hsp)]
      rfl
    · rw [exec_ret_pops hsp] at h
      cases h
      rw [if_neg (fun e : s.sp = 0 => absurd hsp (by rw [show (s.atExecute a b).sp = s.sp from rfl, e]; decide))]
      rfl
  | seVxKk x kk => rw [exec_seVxKk] at h; cases h; rw [Claims.pcAfter, ← hskip]; rfl
  | sneVxKk x kk => rw [exec_sneVxKk] at h; cases h; rw [Claims.pcAfter, ← hskip]; rfl
  | seVxVy x y => rw [exec_seVxVy] at h; cases h; rw [Claims.pcAfter, ← hskip]; rfl
  | drw x y n =>
    rcases execDrw_cases x y n (s.atExecute a b) with ⟨hout, -⟩ | ⟨hin, -⟩
    · rw [exec_drw_faults x y hout] at h; cases h; rfl
    · rw [exec_drw_draws x y hin] at h; cases h; rfl
  | _ => cases h; rfl

/-- Settles O47: each case of a running core's step, and `PC` after each instruction (R15). -/
theorem pcAfterAStep : Obligations.PcAfterAStep := by
  unfold Obligations.PcAfterAStep
  intro a b s t hrun h
  rcases runCycle_running_cases hrun a b with ⟨hpc, e⟩ | ⟨hpc, why, hd, e⟩ | ⟨hpc, i, hd, e⟩ <;> rw [e] at h
  · cases h
    exact ⟨fun _ => rfl, fun _ hlt => by omega, fun _ hlt => by omega⟩
  · cases h
    exact ⟨fun hge => by omega, fun _ _ _ => rfl, fun i _ hd' => by rw [hd] at hd'; cases hd'⟩
  · refine ⟨fun hge => by omega, fun _ _ hd' => ?_, fun _ _ hd' => ?_⟩ <;> rw [hd] at hd' <;> cases hd'
    exact exec_pc h

end Sys2Proof.Machine
end

section
/-!
PROOFS. The host's transactions (spec/70_reset_and_hazards.md R120 to R124): reset, load, the launch state and the read ports,
and the obligations O48, O50 and O56 to O60.
-/

namespace Sys2Proof.Machine

/-! ## Reset (R24, R120) -/

/-- Settles O48: after reset no entry of the stack is live, and every other invariant is of closed values (R25). -/
theorem invariantsHoldAtReset : Obligations.InvariantsHoldAtReset := by
  unfold Obligations.InvariantsHoldAtReset
  exact ⟨by decide, by decide, State.liveEntries_iff.mpr (fun j hj hlt => absurd hlt (Nat.not_lt_zero j)), rfl, rfl,
    by decide, rfl⟩

/-- Settles O56: the fields of the reset state; a register, a slot, a pixel and a byte each read a replicated or unlisted
value (R24). -/
theorem resetStateIsAsTheSpecSays : Obligations.ResetStateIsAsTheSpecSays := by
  unfold Obligations.ResetStateIsAsTheSpecSays
  refine ⟨fun x => ?_, rfl, rfl, rfl, fun j hj => ?_, rfl, rfl, Display.pixel_clear, Memory.read_nil, rfl, rfl⟩
  · exact Vector.getElem_replicate x.isLt
  · exact Vector.getElem_replicate hj

/-- Settles O57: `hostReset` is the reset state with the draws of the state before (R120). -/
theorem resetTransactionRestoresTheResetState : Obligations.ResetTransactionRestoresTheResetState := by
  unfold Obligations.ResetTransactionRestoresTheResetState
  exact fun s => ⟨hostReset s, rfl, rfl⟩

/-! ## The read ports (R98, R113) -/

theorem soundGate_eq (s : State) : soundGate s = decide (0 < s.st.toNat) := by
  rw [soundGate, Bool.eq_iff_iff, bne_iff_ne, decide_eq_true_iff, Nat.pos_iff_ne_zero, ne_eq, ne_eq, ← BitVec.toNat_inj]
  rfl

/-- Settles O60: the ports' transactions, and the gate as a comparison of `ST` (R98, R113). -/
theorem readPortsAnswerAndChangeNothing : Obligations.ReadPortsAnswerAndChangeNothing := by
  unfold Obligations.ReadPortsAnswerAndChangeNothing
  intro s
  exact ⟨rfl, fun _ _ => rfl, by rw [transact, soundGate_eq]⟩

/-! ## Load (R122) -/

/-- A `Load` that fits, on an unloaded core. -/
theorem load_ok {bytes : List Byte} {s : State} (hl : s.loaded = false) (hle : bytes.length ≤ 0xE00) :
    ∃ t, load bytes s = .next (.ok, t) ∧ t.mem = Memory.withImage s.mem bytes ∧
      t = { s with mem := t.mem, loaded := true } := by
  rcases load_cases bytes s with ⟨hl', -⟩ | ⟨-, hgt, -⟩ | ⟨-, -, e⟩
  · rw [hl] at hl'; cases hl'
  · omega
  · generalize Memory.withImage s.mem bytes = m at e ⊢
    exact ⟨_, e, rfl, rfl⟩

/-- Settles O58: the three cases of `Load`, and the bytes of the two runs that it writes (R122, R124). -/
theorem loadWritesTheImageAndTheFont : Obligations.LoadWritesTheImageAndTheFont := by
  unfold Obligations.LoadWritesTheImageAndTheFont
  intro bytes s hwf
  refine ⟨fun hl => ?_, fun hl hgt => ?_, fun hl hle => ?_⟩
  · rcases load_cases bytes s with ⟨-, e⟩ | ⟨hl', -⟩ | ⟨hl', -⟩
    · exact e
    · rw [hl] at hl'; cases hl'
    · rw [hl] at hl'; cases hl'
  · rcases load_cases bytes s with ⟨hl', -⟩ | ⟨-, -, e⟩ | ⟨-, hle, -⟩
    · rw [hl] at hl'; cases hl'
    · exact e
    · omega
  · obtain ⟨t, e, hmem, hframe⟩ := load_ok hl hle
    refine ⟨t, e, ?_, ?_, ?_, hframe⟩ <;> rw [hmem]
    · exact Memory.read_withImage_program hwf hle
    · exact Memory.read_withImage_font hwf hle
    · exact Memory.read_withImage_outside s.mem bytes

/-! ## The launch state (R31, R124) -/

/-- A load keeps R25's invariants. -/
theorem State.Reachable.of_load {s : State} {m : Memory} (h : s.Reachable) (hm : Memory.wf m = true) :
    State.Reachable { s with mem := m, loaded := true } := by
  obtain ⟨hindex, hpc, hstack, hdt, hst, hlatch, -⟩ := h
  exact ⟨hindex, hpc, hstack, hdt, hst, hlatch, hm⟩

theorem hostReset_reachable (s : State) : (hostReset s).Reachable := by
  obtain ⟨hindex, hpc, hstack, hdt, hst, hlatch, hmem⟩ := invariantsHoldAtReset
  exact ⟨hindex, hpc, hstack, hdt, hst, hlatch, hmem⟩

/-- Settles O59: the successful `Load` of O58 on the reset state, whose memory reads 0x00 everywhere (R31, R124). -/
theorem launchStateIsAsTheSpecSays : Obligations.LaunchStateIsAsTheSpecSays := by
  unfold Obligations.LaunchStateIsAsTheSpecSays
  intro bytes s hle
  obtain ⟨t, e, hmem, hframe⟩ := load_ok (s := hostReset s) rfl hle
  have hwf : Memory.wf (hostReset s).mem = true := rfl
  have hfont : ∀ (j : Nat) (hj : j < Config.font.length), Memory.read t.mem (0x50 + j) = Config.font[j] := by
    rw [hmem]; exact Memory.read_withImage_font hwf hle
  refine ⟨t, by rw [transact, e]; rfl, ?_, ?_, ?_, hfont 0 (by decide), hfont 1 (by decide), hfont 2 (by decide),
    hfont 3 (by decide), hfont 4 (by decide), ?_, hframe⟩
  · rw [hframe]
    exact (hostReset_reachable s).of_load (by rw [hmem]; exact Memory.wf_withImage hwf hle)
  · rw [hframe]; rfl
  · rw [hmem]; exact Memory.read_withImage_program hwf hle
  · intro a ha
    rw [hmem, Memory.read_withImage_outside _ bytes a (by omega) (by omega)]
    exact Memory.read_nil a

/-! ## The canonical form of memory -/

theorem transact_keeps_canonical {call : HostCall} {s t : State} {ans : Answer} (hwf : Memory.wf s.mem = true)
    (h : transact call s = .next (ans, t)) : Memory.wf t.mem = true := by
  cases call with
  | reset => cases h; rfl
  | load bytes =>
    obtain ⟨r, hload⟩ := transact_load h
    rcases load_next_cases hload with rfl | ⟨hle, hmem, -⟩
    · exact hwf
    · rw [hmem]; exact Memory.wf_withImage hwf hle
  | step a b =>
    obtain ⟨hcycle, -⟩ := transact_step h
    rw [runCycle_keeps_memory hcycle]
    exact hwf
  | readFrameBuffer => cases h; exact hwf
  | soundGate => cases h; exact hwf

/-- Settles O50: a step leaves memory, a load writes within it, and `Reset` lists no byte. -/
theorem memoryStaysCanonical : Obligations.MemoryStaysCanonical := by
  unfold Obligations.MemoryStaysCanonical
  refine ⟨fun s t hwf h => ?_, fun call s t ans hwf h => transact_keeps_canonical hwf h⟩
  rw [runCycle_keeps_memory h]
  exact hwf

end Sys2Proof.Machine
end

section
/-!
PROOFS. Invariants of every step (spec/10_state.md R25, spec/70_reset_and_hazards.md R128): the live stack entries and `PC` after
a step, and the obligations O49 and O51.
-/

namespace Sys2Proof.Machine

/-! ## Live stack entries (R17) -/

/-- What holds of every live entry and of `PC` holds of every live entry after an instruction: only a call adds one, and it
is `PC`. -/
theorem exec_liveEntries {i : Instr} {s t : State} {p : Word → Bool} (h : exec i s = .next t)
    (hlive : s.liveEntries p = true) (hpc : p s.pc = true) : t.liveEntries p = true := by
  have hslots := State.liveEntries_iff.mp hlive
  cases exec_effect h with
  | pop hi hsp =>
    refine State.liveEntries_iff.mpr fun j hj hlt => hslots j hj ?_
    exact Nat.lt_of_lt_of_le hlt (Nat.sub_le _ 1)
  | push nnn hi hsp =>
    refine State.liveEntries_iff.mpr fun j hj hlt => ?_
    show p (s.stk.set s.sp.val s.pc)[j] = true
    rw [getElem_stk_set s.stk hsp hj]
    split
    · exact hpc
    · exact hslots j hj (by change j < s.sp.val + 1 at hlt; omega)
  | _ => exact hlive

/-- What holds of every live entry, and of the address after the fetch, holds of every live entry after a step. -/
theorem runCycle_running_liveEntries {a b : Bool} {s t : State} {p : Word → Bool} (hrun : s.running = true)
    (h : runCycle a b s = .next t) (hlive : s.liveEntries p = true) (hpc : s.pc.toNat < 4094 → p (s.pc + 2) = true) :
    t.liveEntries p = true := by
  rcases runCycle_running_cases hrun a b with ⟨-, e⟩ | ⟨-, why, -, e⟩ | ⟨hlt, i, -, e⟩ <;> rw [e] at h
  · cases h; exact hlive
  · cases h; exact hlive
  · exact exec_liveEntries (s := s.atExecute a b) h hlive (hpc hlt)

/-! ## `PC` (R15) -/

/-- Where an instruction can take `PC`: one or two words on, to its own target, or to the newest stack entry. -/
theorem pcAfter_cases (s : State) (i : Instr) :
    Claims.pcAfter s i = s.pc + 2 ∨ Claims.pcAfter s i = s.pc + 4 ∨
    (∃ nnn, (i = .jp nnn ∨ i = .call nnn) ∧ Claims.pcAfter s i = BitVec.ofNat 16 nnn.toNat) ∨
    (0 < s.sp.val ∧ Claims.pcAfter s i = s.stk[s.sp.val - 1]) := by
  cases i with
  | jp nnn => exact .inr (.inr (.inl ⟨nnn, .inl rfl, rfl⟩))
  | call nnn =>
    rw [Claims.pcAfter]
    split
    · exact .inl rfl
    · exact .inr (.inr (.inl ⟨nnn, .inr rfl, rfl⟩))
  | ret =>
    rw [Claims.pcAfter]
    split
    · exact .inl rfl
    · next hne => exact .inr (.inr (.inr ⟨Nat.pos_of_ne_zero fun e => hne (Fin.ext e), rfl⟩))
  | seVxKk x kk | seVxVy x y =>
    rw [Claims.pcAfter]
    split
    · exact .inr (.inl rfl)
    · exact .inl rfl
  | sneVxKk x kk =>
    rw [Claims.pcAfter]
    split
    · exact .inl rfl
    · exact .inr (.inl rfl)
  | _ => exact .inl rfl

/-- `PC` after a step of a running core: where the fetch faults the same, else one word on or where the instruction takes
it. -/
theorem runCycle_running_pc {a b : Bool} {s t : State} (hrun : s.running = true) (h : runCycle a b s = .next t) :
    (4094 ≤ s.pc.toNat ∧ t.pc = s.pc) ∨ (s.pc.toNat < 4094 ∧ t.pc = s.pc + 2) ∨
    (s.pc.toNat < 4094 ∧ ∃ i, decodeWord s.opAtPc = .instr i ∧ t.pc = Claims.pcAfter s i) := by
  obtain ⟨hfault, hunknown, hinstr⟩ := pcAfterAStep a b s t hrun h
  rcases runCycle_running_cases hrun a b with ⟨hge, -⟩ | ⟨hlt, why, hd, -⟩ | ⟨hlt, i, hd, -⟩
  · exact .inl ⟨hge, hfault hge⟩
  · exact .inr (.inl ⟨hlt, hunknown why hlt hd⟩)
  · exact .inr (.inr ⟨hlt, i, hd, hinstr i hlt hd⟩)

/-! ## R25 -/

theorem toNat_add_two {w : Word} (h : w.toNat < 4094) : (w + 2).toNat = w.toNat + 2 := by
  rw [BitVec.toNat_add_of_lt]
  · rfl
  · show w.toNat + 2 < 65536
    omega

theorem toNat_add_four {w : Word} (h : w.toNat < 4094) : (w + 4).toNat = w.toNat + 4 := by
  rw [BitVec.toNat_add_of_lt]
  · rfl
  · show w.toNat + 4 < 65536
    omega

/-- The highest `PC` is a skip taken from the highest fetch address, 4093 + 4 = 0x1001. -/
theorem runCycle_running_pc_le {a b : Bool} {s t : State} (hs : s.Reachable) (hrun : s.running = true)
    (h : runCycle a b s = .next t) : t.pc.toNat ≤ 0x1001 := by
  rcases runCycle_running_pc hrun h with ⟨-, e⟩ | ⟨hlt, e⟩ | ⟨hlt, i, -, e⟩
  · rw [e]; exact hs.pc
  · rw [e, toNat_add_two hlt]; omega
  · rcases pcAfter_cases s i with e' | e' | ⟨nnn, -, e'⟩ | ⟨hsp, e'⟩ <;> rw [e, e']
    · rw [toNat_add_two hlt]; omega
    · rw [toNat_add_four hlt]; omega
    · rw [BitVec.toNat_ofNat]; omega
    · have hlive := State.liveEntries_iff.mp hs.stack (s.sp.val - 1) (by omega) (by omega)
      have := (of_decide_eq_true hlive).2
      omega

theorem faultLatchValue_code (c : FatalCause) : faultLatchValue c.code = true := by
  cases c <;> rfl

theorem runCycle_running_latch {a b : Bool} {s t : State} (hrun : s.running = true) (h : runCycle a b s = .next t) :
    faultLatchValue t.fault = true := by
  obtain ⟨-, hf⟩ := State.running_iff.mp hrun
  have hok : faultLatchValue s.fault = true := by rw [hf]; rfl
  rcases runCycle_running_cases hrun a b with ⟨-, e⟩ | ⟨-, why, -, e⟩ | ⟨-, i, -, e⟩ <;> rw [e] at h
  · cases h; rfl
  · cases h; exact hok
  · obtain ⟨-, -, -, -, ⟨hsame, -⟩ | ⟨c, -, hcode, -⟩⟩ := instructionsLeaveTimersAndStatusAlone i _ t h
    · rw [hsame]; exact hok
    · rw [hcode]; exact faultLatchValue_code c

theorem runCycle_running_index_le {a b : Bool} {s t : State} (hrun : s.running = true) (h : runCycle a b s = .next t)
    (hs : s.i.toNat ≤ 0x0FFF) : t.i.toNat ≤ 0x0FFF := by
  rcases runCycle_running_cases hrun a b with ⟨-, e⟩ | ⟨-, why, -, e⟩ | ⟨-, i, -, e⟩ <;> rw [e] at h
  · cases h; exact hs
  · cases h; exact hs
  · exact exec_index_le h hs

/-- R25's invariants are kept by a step. -/
theorem State.Reachable.of_runCycle {a b : Bool} {s t : State} (hs : s.Reachable) (h : runCycle a b s = .next t) :
    t.Reachable := by
  rcases runCycle_next_cases h with rfl | hrun
  · exact ⟨hs.index, hs.pc, hs.stack, hs.delayTimer, hs.soundTimer, hs.latch, hs.memory⟩
  · obtain ⟨hdt, hst, -, hmem⟩ := runCycle_running_leaves hrun h
    refine ⟨runCycle_running_index_le hrun h hs.index, runCycle_running_pc_le hs hrun h,
      runCycle_running_liveEntries hrun h hs.stack fun hlt => ?_, ?_, ?_, runCycle_running_latch hrun h, ?_⟩
    · rw [toNat_add_two hlt]
      exact decide_eq_true (by omega)
    · rw [hdt, hs.delayTimer, countDown_zero]
    · rw [hst, hs.soundTimer, countDown_zero]
    · rw [hmem]; exact hs.memory

/-- Settles O49: a step keeps each invariant, `Reset` makes them hold, and `Load` changes memory and `LOADED` alone (R25). -/
theorem invariantsAreKeptByEveryTransaction : Obligations.InvariantsAreKeptByEveryTransaction := by
  unfold Obligations.InvariantsAreKeptByEveryTransaction
  refine ⟨fun s t hs h => hs.of_runCycle h, fun call s t ans hs h => ?_⟩
  cases call with
  | reset => cases h; exact hostReset_reachable s
  | load bytes =>
    have hwf := transact_keeps_canonical hs.memory h
    obtain ⟨r, hload⟩ := transact_load h
    rcases load_next_cases hload with rfl | ⟨-, -, e⟩
    · exact hs
    · rw [e]; exact hs.of_load hwf
  | step a b => exact hs.of_runCycle (transact_step h).1
  | readFrameBuffer => cases h; exact hs
  | soundGate => cases h; exact hs

/-! ## R128 -/

theorem even_add_two {w : Word} (h : w.toNat % 2 = 0) : (w + 2).toNat % 2 = 0 := by
  rw [BitVec.toNat_add, show (2 : Word).toNat = 2 from rfl]
  omega

theorem even_add_four {w : Word} (h : w.toNat % 2 = 0) : (w + 4).toNat % 2 = 0 := by
  rw [BitVec.toNat_add, show (4 : Word).toNat = 4 from rfl]
  omega

/-- Settles O51: `PC` goes on by 2 or 4, to an even target or to a live return address, and a call pushes the even address
after it (R128). -/
theorem pcStaysEvenUnderEvenTargets : Obligations.PcStaysEvenUnderEvenTargets := by
  unfold Obligations.PcStaysEvenUnderEvenTargets
  intro a b s t ⟨hpc, hstack⟩ htarget h
  rcases runCycle_next_cases h with rfl | hrun
  · exact ⟨hpc, hstack⟩
  refine ⟨?_, runCycle_running_liveEntries hrun h hstack fun _ => decide_eq_true (even_add_two hpc)⟩
  rcases runCycle_running_pc hrun h with ⟨-, e⟩ | ⟨-, e⟩ | ⟨-, i, hd, e⟩
  · rw [e]; exact hpc
  · rw [e]; exact even_add_two hpc
  · rcases pcAfter_cases s i with e' | e' | ⟨nnn, hi, e'⟩ | ⟨hsp, e'⟩ <;> rw [e, e']
    · exact even_add_two hpc
    · exact even_add_four hpc
    · have hnnn : nnn.toNat % 2 = 0 := by
        rcases hi with rfl | rfl
        · exact htarget nnn (.inl hd)
        · exact htarget nnn (.inr hd)
      rw [BitVec.toNat_ofNat]
      omega
    · exact of_decide_eq_true (State.liveEntries_iff.mp hstack (s.sp.val - 1) (by omega) (by omega))

end Sys2Proof.Machine
end

section
/-!
PROOFS. Runs (spec/70_reset_and_hazards.md R129, R131): a parked core and a core in zero memory, one step and any number of
steps, and the obligations O52 and O53.
-/

namespace Sys2Proof.Machine

/-! ## The parked core (R131) -/

theorem State.parkedAt_iff {s : State} {a : Nat} :
    s.parkedAt a = true ↔ s.pc.toNat = a ∧ a ≤ 4093 ∧ s.wordAtPc = 0x1000 + a := by
  rw [State.parkedAt, Bool.and_eq_true, Bool.and_eq_true, beq_iff_eq, beq_iff_eq, decide_eq_true_iff, and_assoc]

/-- A word of family 1 jumps to its low 12 bits. -/
theorem decodeWord_jump {a : Nat} (ha : a ≤ 4093) :
    decodeWord (BitVec.ofNat 16 (0x1000 + a)) = .instr (.jp (BitVec.ofNat 12 a)) := by
  have hop : (BitVec.ofNat 16 (0x1000 + a)).toNat = 0x1000 + a := by
    rw [BitVec.toNat_ofNat]
    omega
  rw [jumpLoadsPc.1 _ (by rw [hop]; omega), hop]
  congr 2
  apply BitVec.eq_of_toNat_eq
  rw [BitVec.toNat_ofNat, BitVec.toNat_ofNat]
  omega

/-- A step of a parked core changes the timers and the report alone. -/
theorem step_of_parked {s : State} {a : Nat} (hrun : s.running = true) (hpark : s.parkedAt a = true) :
    step s = .next { (State.timerUpdate (Config.dueDelay s.draws) (Config.dueSound s.draws) s) with
      report := some ⟨0, s.pc, BitVec.ofNat 16 (0x1000 + a)⟩ } := by
  obtain ⟨hpc, ha, hword⟩ := State.parkedAt_iff.mp hpark
  have htarget : addrOperand (BitVec.ofNat 12 a) = s.pc := by
    apply BitVec.eq_of_toNat_eq
    rw [addrOperand_toNat, BitVec.toNat_ofNat, hpc]
    omega
  obtain ⟨-, e⟩ := stepRunsTheDecodedInstruction false false s _ hrun (by omega) (by rw [hword]; exact decodeWord_jump ha)
  rw [e, exec_jp, htarget, hword]
  rfl

/-- Settles O52: by induction on the number of steps, each of which leaves the core parked (R131). -/
theorem parkedCoreStaysParked : Obligations.ParkedCoreStaysParked := by
  unfold Obligations.ParkedCoreStaysParked
  intro k s a hrun hpark
  induction k with
  | zero => exact ⟨s, rfl, hrun, hpark, rfl, rfl, rfl, rfl, rfl, rfl, rfl, fun h => absurd h (Nat.lt_irrefl 0)⟩
  | succ k ih =>
    obtain ⟨t, hk, htrun, htpark, hv, hi, hsp, hstk, hfb, hmem, hpc, -⟩ := ih
    refine ⟨_, run_then_step Sys2Proof.core hk (step_of_parked htrun htpark), htrun, htpark, hv, hi, hsp, hstk, hfb,
      hmem, hpc, fun _ => ?_⟩
    rw [← hpc]

/-! ## Zero memory (R129) -/

/-- A step on the word 0x0000 goes on by two bytes and changes the timers and the report alone. -/
theorem step_of_zero_word {s : State} (hrun : s.running = true) (hpc : s.pc.toNat < 4094) (hword : s.wordAtPc = 0) :
    step s = .next { (State.timerUpdate (Config.dueDelay s.draws) (Config.dueSound s.draws) s) with
      pc := s.pc + 2, report := some ⟨0, s.pc, 0x0000⟩ } := by
  have hd : decodeWord (BitVec.ofNat 16 s.wordAtPc) = .instr (.sys 0) := by rw [hword]; decide
  obtain ⟨-, e⟩ := stepRunsTheDecodedInstruction false false s _ hrun hpc hd
  rw [e, exec_sys, hword]
  rfl

theorem State.wordAtPc_eq_zero {s : State} (h1 : Memory.read s.mem s.pc.toNat = 0x00)
    (h2 : Memory.read s.mem (s.pc.toNat + 1) = 0x00) : s.wordAtPc = 0 := by
  rw [State.wordAtPc, h1, h2]
  rfl

/-- What a core in zero memory has become after `k` steps. -/
def State.ranThroughZeros (s : State) (k : Nat) (t : State) : Prop :=
  t.running = true ∧ t.pc.toNat = s.pc.toNat + 2 * k ∧ Claims.sameButPcTimersStatus s t ∧
    (0 < k → t.report = some ⟨0, t.pc - 2, 0x0000⟩)

/-- A core whose memory is zero from `PC` on runs through it, two bytes a step, as far as a fetch succeeds. -/
theorem run_through_zeros {s : State} (hrun : s.running = true)
    (hzero : ∀ a, s.pc.toNat ≤ a → a < 4096 → Memory.read s.mem a = 0x00) (k : Nat) (hk : 2 * k ≤ 4095 - s.pc.toNat) :
    ∃ t : State, Host.Core.run Sys2Proof.core k s = .next t ∧ s.ranThroughZeros k t := by
  induction k with
  | zero => exact ⟨s, rfl, hrun, rfl, ⟨rfl, rfl, rfl, rfl, rfl, rfl⟩, fun h => absurd h (Nat.lt_irrefl 0)⟩
  | succ k ih =>
    obtain ⟨t, hrunk, htrun, htpc, hsame, -⟩ := ih (by omega)
    have htlt : t.pc.toNat < 4094 := by omega
    have hmem : t.mem = s.mem := by
      obtain ⟨-, -, -, -, -, hmem⟩ := hsame
      exact hmem
    have hword : t.wordAtPc = 0 := State.wordAtPc_eq_zero
      (by rw [hmem]; exact hzero _ (by omega) (by omega)) (by rw [hmem]; exact hzero _ (by omega) (by omega))
    refine ⟨_, run_then_step Sys2Proof.core hrunk (step_of_zero_word htrun htlt hword), htrun, ?_, hsame, fun _ => ?_⟩
    · show (t.pc + 2).toNat = _
      rw [toNat_add_two htlt]
      omega
    · show some _ = some (Report.mk 0 (t.pc + 2 - 2) 0x0000)
      rw [BitVec.add_sub_cancel]

/-- Settles O53: the run through zero memory, by induction on the number of steps, and the fetch fault at its end (R129). -/
theorem zeroMemoryRunsToTheFetchFault : Obligations.ZeroMemoryRunsToTheFetchFault := by
  unfold Obligations.ZeroMemoryRunsToTheFetchFault
  intro s hrun hpc hzero
  constructor
  · intro k hk
    obtain ⟨t, hrunk, htrun, htpc, hsame, hreport⟩ := run_through_zeros hrun hzero k hk
    exact ⟨t, hrunk, htpc, (State.running_iff.mp htrun).2, hsame, hreport⟩
  · obtain ⟨t, hrunk, htrun, htpc, hsame, -⟩ :=
      run_through_zeros hrun hzero ((4095 - s.pc.toNat) / 2) (by omega)
    have hfault := fetchAtOrAboveTheLimitFaults (Config.dueDelay t.draws) (Config.dueSound t.draws) t htrun (by omega)
    refine ⟨_, run_then_step Sys2Proof.core hrunk hfault, ?_, rfl, hsame, rfl⟩
    show t.pc.toNat = _
    omega

end Sys2Proof.Machine
end

section
/-!
PROOFS. What cannot be observed (spec/10_state.md R17, spec/60_exceptions.md R112): a relation of states that every stage of the
cycle keeps is kept by the step, said once; stale stack slots and the timers are such relations; the obligations O54 and O55.
-/

namespace Sys2Proof.Machine

open Sys2Proof.Claims

/-! ## Relations that the cycle keeps -/

/-- A relation of states under which every stage of the cycle takes the same branch and keeps the relation. -/
structure IsCycleRelation (R : State → State → Prop) : Prop where
  same : ∀ {s t}, R s t → t.pc = s.pc ∧ t.mem = s.mem ∧ t.fault = s.fault ∧ t.loaded = s.loaded
  halted : ∀ {s t}, R s t → R s.haltedStep t.haltedStep
  fetchFault : ∀ {s t}, R s t → R (s.raise .outOfBoundsFetch s.pc 0x0000) (t.raise .outOfBoundsFetch s.pc 0x0000)
  fetched : ∀ {s t} (op : Word), R s t → R (s.fetched op) (t.fetched op)
  unknown : ∀ {s t} (addr op : Word), R s t → R (s.reportUnknown addr op) (t.reportUnknown addr op)
  exec : ∀ {s t} (i : Instr), R s t → outcomesAgree R (exec i s) (exec i t)

theorem IsCycleRelation.fetchDecodeExecute {R : State → State → Prop} (hR : IsCycleRelation R) {s t : State} (h : R s t) :
    outcomesAgree R (fetchDecodeExecute s) (fetchDecodeExecute t) := by
  obtain ⟨hpc, hmem, -, -⟩ := hR.same h
  have hword : t.wordAtPc = s.wordAtPc := by rw [State.wordAtPc, State.wordAtPc, hpc, hmem]
  have hs := fetchDecodeExecute_cases s
  have ht := fetchDecodeExecute_cases t
  rw [hpc, hword] at ht
  rcases hs with ⟨hge, es⟩ | ⟨hlt, why, hd, es⟩ | ⟨hlt, i, hd, es⟩
  · rcases ht with ⟨-, et⟩ | ⟨hlt, -⟩ | ⟨hlt, -⟩
    · rw [es, et]; exact hR.fetchFault h
    · omega
    · omega
  · rcases ht with ⟨hge, -⟩ | ⟨-, -, -, et⟩ | ⟨-, i, hd', -⟩
    · omega
    · rw [es, et]; exact hR.unknown _ _ (hR.fetched _ h)
    · rw [hd] at hd'; cases hd'
  · rcases ht with ⟨hge, -⟩ | ⟨-, why, hd', -⟩ | ⟨-, j, hd', et⟩
    · omega
    · rw [hd] at hd'; cases hd'
    · rw [hd] at hd'
      cases hd'
      rw [es, et]
      exact hR.exec i (hR.fetched _ h)

/-- A step keeps such a relation, when the two timer updates do. -/
theorem IsCycleRelation.runCycle {R : State → State → Prop} (hR : IsCycleRelation R) {s t : State} (h : R s t)
    {a b a' b' : Bool} (htimers : R (State.timerUpdate a b s) (State.timerUpdate a' b' t)) :
    outcomesAgree R (runCycle a b s) (runCycle a' b' t) := by
  obtain ⟨-, -, hfault, hloaded⟩ := hR.same h
  have hs := runCycle_cases a b s
  have ht := runCycle_cases a' b' t
  rw [hfault, hloaded] at ht
  rcases hs with ⟨hl, es⟩ | ⟨hl, hf, es⟩ | ⟨hl, hf, es⟩ <;> rcases ht with ⟨hl', et⟩ | ⟨hl', hf', et⟩ | ⟨hl', hf', et⟩
  · rw [es, et]; rfl
  · rw [hl] at hl'; cases hl'
  · rw [hl] at hl'; cases hl'
  · rw [hl] at hl'; cases hl'
  · rw [es, et]; exact hR.halted h
  · exact absurd hf' hf
  · rw [hl] at hl'; cases hl'
  · exact absurd hf hf'
  · rw [es, et]; exact hR.fetchDecodeExecute htimers

/-! ## The timers (R112) -/

/-- Every instruction does the same whatever the timers and the draws counter, and leaves them. -/
theorem exec_withTimers {i : Instr} {s t : State} (h : exec i s = .next t) (d e : Byte) (k : Nat) :
    exec i { s with dt := d, st := e, draws := k } = .next { t with dt := d, st := e, draws := k } := by
  cases i with
  | cls | ldINnn nnn => cases h; rfl
  | drw x y n =>
    rcases execDrw_cases x y n s with ⟨hout, -⟩ | ⟨hin, -⟩
    · rw [exec_drw_faults x y hout] at h
      cases h
      exact exec_drw_faults (s := { s with dt := d, st := e, draws := k }) x y hout
    · rw [exec_drw_draws x y hin] at h
      cases h
      exact exec_drw_draws (s := { s with dt := d, st := e, draws := k }) x y hin
  | _ =>
    have hcore := exec_withCore (by nofun) (by nofun) (by nofun) h { s with dt := d, st := e, draws := k }
    rw [exec_core_frame (by nofun) (by nofun) (by nofun) h] at hcore ⊢
    exact hcore

theorem sameButTimers_iff {s t : State} : sameButTimers s t ↔ ∃ d e k, t = { s with dt := d, st := e, draws := k } :=
  ⟨fun h => ⟨t.dt, t.st, t.draws, h⟩, by rintro ⟨d, e, k, rfl⟩; rfl⟩

theorem sameButTimers_isCycleRelation : IsCycleRelation sameButTimers where
  same h := by obtain ⟨d, e, k, rfl⟩ := sameButTimers_iff.mp h; exact ⟨rfl, rfl, rfl, rfl⟩
  halted h := by obtain ⟨d, e, k, rfl⟩ := sameButTimers_iff.mp h; rfl
  fetchFault h := by obtain ⟨d, e, k, rfl⟩ := sameButTimers_iff.mp h; rfl
  fetched op h := by obtain ⟨d, e, k, rfl⟩ := sameButTimers_iff.mp h; rfl
  unknown addr op h := by obtain ⟨d, e, k, rfl⟩ := sameButTimers_iff.mp h; rfl
  exec {s _} i h := by
    obtain ⟨d, e, k, rfl⟩ := sameButTimers_iff.mp h
    obtain ⟨u, hu⟩ := exec_next i s
    rw [hu, exec_withTimers hu]
    rfl

/-- Settles O55: no stage of the cycle reads the timers, and an update, with whatever inputs, changes them alone (R112). -/
theorem timersAndDueInputsAreUnobservable : Obligations.TimersAndDueInputsAreUnobservable := by
  unfold Obligations.TimersAndDueInputsAreUnobservable
  intro a b a' b' s t h
  refine sameButTimers_isCycleRelation.runCycle h ?_
  obtain ⟨d, e, k, rfl⟩ := sameButTimers_iff.mp h
  rfl

/-! ## Stale stack slots (R17) -/

/-- `k` holds the live entries of `s`. -/
def State.liveSlotsIn (s : State) (k : Vector Word 16) : Prop :=
  ∀ (j : Nat) (h : j < 16), j < s.sp.val → k[j] = s.stk[j]

theorem sameButStaleSlots_iff {s t : State} :
    sameButStaleSlots s t ↔ ∃ k, s.liveSlotsIn k ∧ t = { s with stk := k } :=
  ⟨fun ⟨e, hslots⟩ => ⟨t.stk, hslots, e⟩, by rintro ⟨k, hslots, rfl⟩; exact ⟨rfl, hslots⟩⟩

/-- An instruction other than CALL and RET does the same whatever the stack slots, and leaves them. -/
theorem exec_withSlots {i : Instr} (hret : i ≠ .ret) (hcall : ∀ nnn, i ≠ .call nnn) {s t : State} (h : exec i s = .next t)
    (k : Vector Word 16) : exec i { s with stk := k } = .next { t with stk := k } := by
  cases i with
  | ret => exact absurd rfl hret
  | call nnn => exact absurd rfl (hcall nnn)
  | cls | ldINnn nnn => cases h; rfl
  | drw x y n =>
    rcases execDrw_cases x y n s with ⟨hout, -⟩ | ⟨hin, -⟩
    · rw [exec_drw_faults x y hout] at h
      cases h
      exact exec_drw_faults (s := { s with stk := k }) x y hout
    · rw [exec_drw_draws x y hin] at h
      cases h
      exact exec_drw_draws (s := { s with stk := k }) x y hin
  | _ =>
    have hlocal := exec_withLocal rfl h { s with stk := k }
    rw [exec_local_frame rfl h] at hlocal ⊢
    exact hlocal

/-- RET pops the same live entry, and leaves fewer slots live. -/
theorem exec_ret_agrees {s : State} {k : Vector Word 16} (hk : s.liveSlotsIn k) :
    outcomesAgree sameButStaleSlots (exec .ret s) (exec .ret { s with stk := k }) := by
  rcases execRet_cases s with ⟨hsp, -⟩ | ⟨hsp, -⟩
  · rw [exec_ret_faults hsp, exec_ret_faults (s := { s with stk := k }) hsp]
    exact ⟨rfl, hk⟩
  · rw [exec_ret_pops hsp, exec_ret_pops (s := { s with stk := k }) hsp]
    have hpop : k[s.sp.val - 1] = s.stk[s.sp.val - 1] := hk _ (by omega) (by omega)
    refine sameButStaleSlots_iff.mpr ⟨k, fun j hj hlt => hk j hj ?_, ?_⟩
    · exact Nat.lt_of_lt_of_le hlt (Nat.sub_le _ 1)
    · simp only [hpop]

/-- CALL writes the same entry into the first stale slot. -/
theorem exec_call_agrees (nnn : Addr12) {s : State} {k : Vector Word 16} (hk : s.liveSlotsIn k) :
    outcomesAgree sameButStaleSlots (exec (.call nnn) s) (exec (.call nnn) { s with stk := k }) := by
  rcases execCall_cases nnn s with ⟨hsp, -⟩ | ⟨hsp, -⟩
  · rw [exec_call_faults nnn hsp, exec_call_faults (s := { s with stk := k }) nnn hsp]
    exact ⟨rfl, hk⟩
  · rw [exec_call_pushes nnn hsp, exec_call_pushes (s := { s with stk := k }) nnn hsp]
    refine ⟨rfl, fun j hj hlt => ?_⟩
    change j < s.sp.val + 1 at hlt
    show (k.set s.sp.val s.pc)[j] = (s.stk.set s.sp.val s.pc)[j]
    rw [getElem_stk_set k hsp hj, getElem_stk_set s.stk hsp hj]
    split
    · rfl
    · exact hk j hj (by omega)

theorem exec_agrees_on_stale (i : Instr) {s : State} {k : Vector Word 16} (hk : s.liveSlotsIn k) :
    outcomesAgree sameButStaleSlots (exec i s) (exec i { s with stk := k }) := by
  by_cases hret : i = .ret
  · subst hret
    exact exec_ret_agrees hk
  · by_cases hcall : ∃ nnn, i = .call nnn
    · obtain ⟨nnn, rfl⟩ := hcall
      exact exec_call_agrees nnn hk
    · have hcall' : ∀ nnn, i ≠ .call nnn := fun nnn e => hcall ⟨nnn, e⟩
      obtain ⟨u, hu⟩ := exec_next i s
      obtain ⟨hsp, hstk⟩ := exec_keeps_stack hret hcall' hu
      rw [hu, exec_withSlots hret hcall' hu]
      refine sameButStaleSlots_iff.mpr ⟨k, fun j hj hlt => ?_, rfl⟩
      rw [hsp] at hlt
      rw [hk j hj hlt]
      simp only [hstk]

theorem sameButStaleSlots_isCycleRelation : IsCycleRelation sameButStaleSlots where
  same h := by obtain ⟨k, -, rfl⟩ := sameButStaleSlots_iff.mp h; exact ⟨rfl, rfl, rfl, rfl⟩
  halted h := by obtain ⟨k, hk, rfl⟩ := sameButStaleSlots_iff.mp h; exact ⟨rfl, hk⟩
  fetchFault h := by obtain ⟨k, hk, rfl⟩ := sameButStaleSlots_iff.mp h; exact ⟨rfl, hk⟩
  fetched op h := by obtain ⟨k, hk, rfl⟩ := sameButStaleSlots_iff.mp h; exact ⟨rfl, hk⟩
  unknown addr op h := by obtain ⟨k, hk, rfl⟩ := sameButStaleSlots_iff.mp h; exact ⟨rfl, hk⟩
  exec i h := by obtain ⟨k, hk, rfl⟩ := sameButStaleSlots_iff.mp h; exact exec_agrees_on_stale i hk

/-- Settles O54: a pop reads a live slot, a push writes the first stale one, and no other stage of the cycle touches a slot
(R17). -/
theorem staleStackSlotsAreUnobservable : Obligations.StaleStackSlotsAreUnobservable := by
  unfold Obligations.StaleStackSlotsAreUnobservable
  intro a b s t h
  refine sameButStaleSlots_isCycleRelation.runCycle h ?_
  obtain ⟨k, hk, rfl⟩ := sameButStaleSlots_iff.mp h
  exact ⟨rfl, hk⟩

end Sys2Proof.Machine
end
